-- ==== Sys2Proof/Config.lean ====
section
/-!
DEFINITION. The implementation parameters of the block that the spec leaves OPEN (R9, R32). Every decided parameter
(the widths 7 and 8, the code widths, the event bound) stands where it is used.
-/

namespace Sys2Proof

/-- The parameter `Timestamp` (R9, D1) is OPEN, "any type; the decoder only copies values of it": State, every meaning and
every shared operation take the type as an argument. This is the type at which the host's interface, which has no parameter,
runs the machine: the index timestamps of R64. DESIGN CHOICE, safe (notes/assumptions/1.md). -/
abbrev Timestamp := Nat

/-- The parameter `PlatformPlacement` (R32, D20): where a platform maps the block, if it maps it at all. It is a free
value; the block has no addresses and nothing reads it (notes/assumptions/14.md). -/
opaque Config.platformPlacement : Option Nat

end Sys2Proof
end

