-- ==== Sys2Proof/Word.lean ====
section
/-!
DEFINITION. The bit-vector types of the block: one bus level, the dispatch word, a byte.
-/

namespace Sys2Proof

/-- A logic level of SCL or SDA: a single bit, 0 low and 1 high (R10, R60). -/
abbrev Level := BitVec 1

/-- The dispatch word `W[6:0]`, the phase code above the transition code (R50). -/
abbrev DispatchWord := BitVec 7

/-- The transition code `T[3:0]`, the last levels above the new ones (R49). -/
abbrev TransitionCode := BitVec 4

/-- A byte: `byteAccumulator` and the value of a byte event (R16, R45). -/
abbrev Byte := BitVec 8

end Sys2Proof
end

