-- ==== Sys2Proof/Syntax.lean ====
section
/-!
DEFINITION. The operations of the block: one constructor per row of the opcode table (R54).
-/

namespace Sys2Proof

/-- One operation of R54 with the dispatch-word bits its row leaves free as operands, in the order of the word:
`phase` is `W[6:4]`, `lastSda` is `W[2]` and `sda` is `W[0]`. -/
inductive Instr where
  /-- NOCHG.00, `---0000` (R68) -/
  | nochg00 (phase : BitVec 3)
  /-- NOCHG.01, `---0101` (R68) -/
  | nochg01 (phase : BitVec 3)
  /-- NOCHG.10, `---1010` (R68) -/
  | nochg10 (phase : BitVec 3)
  /-- NOCHG.11, `---1111` (R68) -/
  | nochg11 (phase : BitVec 3)
  /-- CLKFALL, `---1-0-` (R69) -/
  | clkfall (phase : BitVec 3) (lastSda sda : Level)
  /-- SETUP.R, `---0001` (R70) -/
  | setupR (phase : BitVec 3)
  /-- SETUP.F, `---0100` (R71) -/
  | setupF (phase : BitVec 3)
  /-- START, `---1110` (R72) -/
  | start (phase : BitVec 3)
  /-- STOP, `---1011` (R73) -/
  | stop (phase : BitVec 3)
  /-- IDLEBIT, `0000-1-` (R87) -/
  | idlebit (lastSda sda : Level)
  /-- ADDRBIT, `0010-1-` (R82) -/
  | addrbit (lastSda sda : Level)
  /-- DIRBIT, `0100-1-` (R84) -/
  | dirbit (lastSda sda : Level)
  /-- ACKBIT, `0110-1-` (R85) -/
  | ackbit (lastSda sda : Level)
  /-- DATABIT, `1000-1-` (R86) -/
  | databit (lastSda sda : Level)
  deriving DecidableEq, Repr

end Sys2Proof
end

