-- ==== Sys2Proof/WellFormed.lean ====
section
/-!
DEFINITION. The one check on an operation's operands: a phase operand holds a legal phase code.
-/

namespace Sys2Proof

/-- The legal phase codes are 0 to 4; 0b101, 0b110 and 0b111 are reserved (R13, R61). -/
def legalPhaseCode (c : BitVec 3) : Bool := c.toNat ≤ 4

/-- An operation is well formed when its phase operand, if its row has one, is a legal code (R59, R61). The rows of a
BITSAMPLE fix the phase bits and have no check. -/
def Instr.wellFormed : Instr → Bool
  | .nochg00 p => legalPhaseCode p
  | .nochg01 p => legalPhaseCode p
  | .nochg10 p => legalPhaseCode p
  | .nochg11 p => legalPhaseCode p
  | .clkfall p _ _ => legalPhaseCode p
  | .setupR p => legalPhaseCode p
  | .setupF p => legalPhaseCode p
  | .start p => legalPhaseCode p
  | .stop p => legalPhaseCode p
  | .idlebit _ _ => true
  | .addrbit _ _ => true
  | .dirbit _ _ => true
  | .ackbit _ _ => true
  | .databit _ _ => true

end Sys2Proof
end

