-- ==== Sys2Proof/Decode.lean ====
section
/-!
DEFINITION. The opcode table of R54 as data, the decoder that reads a dispatch word by it, and the encoder. The decoder
matches the rows exactly as the table gives them, so a reserved phase code in don't-care bits decodes to an ill-formed
operation and a BITSAMPLE with a reserved phase code matches no row (R55, R61).
-/

namespace Sys2Proof

/-- The rows of the opcode table, without their free bits. -/
inductive Opcode where
  | nochg00 | nochg01 | nochg10 | nochg11 | clkfall | setupR | setupF | start | stop
  | idlebit | addrbit | dirbit | ackbit | databit
  deriving DecidableEq, Repr

/-- The rows in the table's order (R54). -/
def Opcode.all : List Opcode :=
  [.nochg00, .nochg01, .nochg10, .nochg11, .clkfall, .setupR, .setupF, .start, .stop,
   .idlebit, .addrbit, .dirbit, .ackbit, .databit]

/-- The `mask` column of R54. -/
def Opcode.mask : Opcode → DispatchWord
  | .nochg00 | .nochg01 | .nochg10 | .nochg11 => 0x0F#7
  | .clkfall => 0x0A#7
  | .setupR | .setupF | .start | .stop => 0x0F#7
  | .idlebit | .addrbit | .dirbit | .ackbit | .databit => 0x7A#7

/-- The `match` column of R54. -/
def Opcode.pattern : Opcode → DispatchWord
  | .nochg00 => 0x00#7
  | .nochg01 => 0x05#7
  | .nochg10 => 0x0A#7
  | .nochg11 => 0x0F#7
  | .clkfall => 0x08#7
  | .setupR => 0x01#7
  | .setupF => 0x04#7
  | .start => 0x0E#7
  | .stop => 0x0B#7
  | .idlebit => 0x02#7
  | .addrbit => 0x12#7
  | .dirbit => 0x22#7
  | .ackbit => 0x32#7
  | .databit => 0x42#7

/-- A row matches a word when the masked word is the row's `match` value (R50, R54). -/
def Opcode.selects (o : Opcode) (w : DispatchWord) : Bool := (w &&& o.mask) == o.pattern

/-- Bit `k` of a dispatch word as a level. -/
def wordBit (w : DispatchWord) (k : Nat) : Level := w.extractLsb' k 1

/-- `W[6:4]`, the phase code (R50). -/
def wordPhase (w : DispatchWord) : BitVec 3 := w.extractLsb' 4 3

/-- `W[3:0]`, the transition code (R50). -/
def wordTransition (w : DispatchWord) : TransitionCode := w.extractLsb' 0 4

/-- The operation a row reads from a word: its free bits become operands. -/
def Opcode.build (o : Opcode) (w : DispatchWord) : Instr :=
  match o with
  | .nochg00 => .nochg00 (wordPhase w)
  | .nochg01 => .nochg01 (wordPhase w)
  | .nochg10 => .nochg10 (wordPhase w)
  | .nochg11 => .nochg11 (wordPhase w)
  | .clkfall => .clkfall (wordPhase w) (wordBit w 2) (wordBit w 0)
  | .setupR => .setupR (wordPhase w)
  | .setupF => .setupF (wordPhase w)
  | .start => .start (wordPhase w)
  | .stop => .stop (wordPhase w)
  | .idlebit => .idlebit (wordBit w 2) (wordBit w 0)
  | .addrbit => .addrbit (wordBit w 2) (wordBit w 0)
  | .dirbit => .dirbit (wordBit w 2) (wordBit w 0)
  | .ackbit => .ackbit (wordBit w 2) (wordBit w 0)
  | .databit => .databit (wordBit w 2) (wordBit w 0)

/-- Why a word is no operation. -/
inductive DecodeError where
  /-- No row of the table matches: a BITSAMPLE under a reserved phase code (R55, R61). -/
  | noRow (w : DispatchWord)
  deriving DecidableEq, Repr

/-- The decoder: the first row that matches the dispatch word (R50, R54), or the word refused by name. -/
def decode (w : DispatchWord) : Except DecodeError Instr :=
  match Opcode.all.find? (·.selects w) with
  | some o => .ok (o.build w)
  | none => .error (.noRow w)

/-- The dispatch word laid out of its five parts, most significant first (R49, R50). -/
def packWord (phase : BitVec 3) (lastScl lastSda scl sda : Level) : DispatchWord :=
  phase ++ lastScl ++ lastSda ++ scl ++ sda

/-- The transition code laid out of its four parts, most significant first (R49). -/
def packTransition (lastScl lastSda scl sda : Level) : TransitionCode :=
  lastScl ++ lastSda ++ scl ++ sda

/-- The dispatch word of an operation, written from the pattern column of R54. -/
def encode : Instr → DispatchWord
  | .nochg00 p => packWord p 0#1 0#1 0#1 0#1
  | .nochg01 p => packWord p 0#1 1#1 0#1 1#1
  | .nochg10 p => packWord p 1#1 0#1 1#1 0#1
  | .nochg11 p => packWord p 1#1 1#1 1#1 1#1
  | .clkfall p ld d => packWord p 1#1 ld 0#1 d
  | .setupR p => packWord p 0#1 0#1 0#1 1#1
  | .setupF p => packWord p 0#1 1#1 0#1 0#1
  | .start p => packWord p 1#1 1#1 1#1 0#1
  | .stop p => packWord p 1#1 0#1 1#1 1#1
  | .idlebit ld d => packWord 0b000#3 0#1 ld 1#1 d
  | .addrbit ld d => packWord 0b001#3 0#1 ld 1#1 d
  | .dirbit ld d => packWord 0b010#3 0#1 ld 1#1 d
  | .ackbit ld d => packWord 0b011#3 0#1 ld 1#1 d
  | .databit ld d => packWord 0b100#3 0#1 ld 1#1 d

/-- The row of an operation. -/
def Instr.opcode : Instr → Opcode
  | .nochg00 _ => .nochg00
  | .nochg01 _ => .nochg01
  | .nochg10 _ => .nochg10
  | .nochg11 _ => .nochg11
  | .clkfall _ _ _ => .clkfall
  | .setupR _ => .setupR
  | .setupF _ => .setupF
  | .start _ => .start
  | .stop _ => .stop
  | .idlebit _ _ => .idlebit
  | .addrbit _ _ => .addrbit
  | .dirbit _ _ => .dirbit
  | .ackbit _ _ => .ackbit
  | .databit _ _ => .databit

/-- A number read as a dispatch word; a set bit above `W[6]` is no dispatch word (R57). -/
def wordOfNat? (nbits w : Nat) : Option DispatchWord :=
  if w % 2 ^ nbits < 128 then some (BitVec.ofNat 7 (w % 2 ^ nbits)) else none

/-- The operation the decoder reads from bits numbered as the opcode table numbers them. -/
def decodeTableWord (nbits w : Nat) : Option Instr :=
  match wordOfNat? nbits w with
  | some v => (decode v).toOption
  | none => none

end Sys2Proof
end

