-- ==== Sys2Proof/Machine/State.lean ====
section
/-!
DEFINITION. The state: the decoder's five fields (R11, R12), the port bundle with the host's stream of transactions
(R41, R42), the outputs of the last transaction (R44) and what the three sinks have accepted (R37, R40). What holds a
timestamp takes its type `τ` as an argument, the OPEN parameter `Timestamp` of R9; `State` is the state at the type at
which the host's interface runs the machine (notes/assumptions/1.md).
-/

namespace Sys2Proof.Machine

/-- The five phases of the transaction grammar (R13). A reserved phase code is unrepresentable (R61). -/
inductive Phase where
  | idle | readAddress | readDirection | readAck | readData
  deriving DecidableEq, Repr

/-- The fixed vocabulary of the text events (R46, R47). -/
inductive Tag where
  | start | startOdd | stop | address | write | read | ack | nack | data
  deriving DecidableEq, Repr

/-- A protocol event: a byte event or a text event, with its timestamp (R45, R46), of any type (R9). -/
inductive Event (τ : Type) where
  | byte (ts : τ) (value : Byte)
  | text (ts : τ) (tag : Tag)
  deriving DecidableEq, Repr

/-- A diagnostic record: phase and last levels before the step, and the levels of the step's sample (R48). -/
structure Diag where
  phase : Phase
  lastScl : Level
  lastSda : Level
  scl : Level
  sda : Level
  deriving DecidableEq, Repr

/-- The outputs of one transaction: its event sequence, in order, and its diagnostic, if any (R44). -/
structure Output (τ : Type) where
  events : List (Event τ)
  diag : Option Diag
  deriving DecidableEq, Repr

/-- The input port bundle of one transaction (R42). -/
structure InPorts (τ : Type) where
  /-- `sample_valid`: a sample is presented -/
  sampleValid : Bool
  /-- `create`: perform the reset transaction instead of a step -/
  create : Bool
  /-- `scl_in` -/
  sclIn : Level
  /-- `sda_in` -/
  sdaIn : Level
  /-- `ts_in` -/
  tsIn : τ
  deriving DecidableEq, Repr

/-- The decoder state: exactly these five fields (R11, R12). -/
structure Decoder where
  /-- the current point in the transaction grammar (R13) -/
  phase : Phase
  /-- the most recently observed SCL level (R14) -/
  lastScl : Level
  /-- the most recently observed SDA level (R14) -/
  lastSda : Level
  /-- the count of bits accumulated into the current field (R15) -/
  bitPosition : BitVec 3
  /-- the partially assembled byte (R16) -/
  byteAccumulator : Byte
  deriving DecidableEq, Repr

/-- The state of the machine. `dec` is the block; the other fields stand at its boundary (notes/assumptions/2.md,
notes/assumptions/4.md). -/
structure State.At (τ : Type) where
  /-- the decoder's own state (R11) -/
  dec : Decoder
  /-- the transactions the host has still to present, oldest first (R41, R43) -/
  input : List (InPorts τ)
  /-- the input ports, as the last transaction drove them (R42) -/
  port : InPorts τ
  /-- the outputs of the last transaction (R43, R44) -/
  out : Output τ
  /-- what the byte output sink has accepted, oldest first (R45) -/
  byteSink : List (τ × Byte)
  /-- what the text output sink has accepted, oldest first (R46) -/
  textSink : List (τ × Tag)
  /-- what the diagnostic sink has accepted, oldest first (R88) -/
  diagSink : List Diag
  deriving DecidableEq, Repr

/-- The state at the type of timestamps at which the host's interface, which has no parameter, runs the machine. -/
abbrev State := State.At Timestamp

/-- The reasons the model stops with a fault. -/
inductive Fault where
  /-- Raised by `receiveText`, the text sink, when it is handed a tag code 0x9 to 0xF (R62). SAFE: the machine stops,
  and no operation emits such a code, so no step raises it. -/
  | reservedTagCode (code : BitVec 4)
  deriving DecidableEq, Repr

/-- The reasons the model refuses a step. -/
inductive Refusal where
  /-- Raised by an arm of `exec` whose operation has no meaning yet. SAFE. No arm raises it. -/
  | notModelled (mnemonic : String)
  /-- Raised by `step` when a transaction asserts both `sample_valid` and `create` (R42). SAFE: the spec refuses it. -/
  | sampleAndCreate
  /-- Raised by `step` when the dispatch word matches no row (R55, R61). SAFE: a BITSAMPLE under a reserved phase code,
  which the phase register cannot hold. -/
  | noRow (w : DispatchWord)
  /-- Raised by `step` when the decoded operation holds a reserved phase code (R61). SAFE: the phase register cannot
  hold one. -/
  | reservedPhase (w : DispatchWord)
  /-- Raised by ADDRBIT when `bitPosition` is 7, a state the rules never reach (R82, D13). SAFE: the machine stops
  where the spec lets a model refuse. -/
  | addressOverrun
  deriving DecidableEq, Repr

/-- The decoder as `create` leaves it (R115, R116). -/
def Decoder.create : Decoder :=
  { phase := .idle, lastScl := 1#1, lastSda := 1#1, bitPosition := 0#3, byteAccumulator := 0#8 }

/-- The outputs of a transaction that emits nothing (R51). -/
def Output.silent {τ : Type} : Output τ := { events := [], diag := none }

/-- Ports on which no transaction is presented, at the idle bus levels, with `ts` on the timestamp port (R42;
notes/assumptions/3.md). -/
def InPorts.quiet {τ : Type} (ts : τ) : InPorts τ :=
  { sampleValid := false, create := false, sclIn := 1#1, sdaIn := 1#1, tsIn := ts }

/-- The machine right after reset, with timestamps of any type: the decoder as `create` leaves it, no event and no
diagnostic (R116, R117), no transaction presented, nothing in the sinks (notes/assumptions/3.md). -/
def State.At.reset {τ : Type} (ts : τ) : State.At τ :=
  { dec := Decoder.create, input := [], port := InPorts.quiet ts, out := Output.silent,
    byteSink := [], textSink := [], diagSink := [] }

/-- The machine right after reset, at the host's timestamp type. -/
def State.reset : State := State.At.reset 0

end Sys2Proof.Machine
end

