-- ==== Sys2Proof/Machine/Operands.lean ====
section
/-!
DEFINITION. The operands and codes of the operations: phase and tag codes (R13, R47), the dispatch word of a step (R50),
the bit insertion and the bit count (R15, R56, R89), the output ports (R44) and the boundary with a host trace (R63).
-/

namespace Sys2Proof.Machine

/- `τ` is the OPEN parameter `Timestamp` (R9): every definition takes it as an argument. -/
variable {τ : Type}

/-- The 3-bit code of a phase (R13). -/
def Phase.code : Phase → BitVec 3
  | .idle => 0b000#3
  | .readAddress => 0b001#3
  | .readDirection => 0b010#3
  | .readAck => 0b011#3
  | .readData => 0b100#3

/-- The phase of a code; the reserved codes have none (R13, R61). -/
def Phase.ofCode? (c : BitVec 3) : Option Phase :=
  if c = 0b000#3 then some .idle
  else if c = 0b001#3 then some .readAddress
  else if c = 0b010#3 then some .readDirection
  else if c = 0b011#3 then some .readAck
  else if c = 0b100#3 then some .readData
  else none

/-- The 4-bit code of a tag (R47). -/
def Tag.code : Tag → BitVec 4
  | .start => 0x0#4
  | .startOdd => 0x1#4
  | .stop => 0x2#4
  | .address => 0x3#4
  | .write => 0x4#4
  | .read => 0x5#4
  | .ack => 0x6#4
  | .nack => 0x7#4
  | .data => 0x8#4

/-- The tag of a code; the reserved codes have none (R47, R62). -/
def Tag.ofCode? (c : BitVec 4) : Option Tag :=
  if c = 0x0#4 then some .start
  else if c = 0x1#4 then some .startOdd
  else if c = 0x2#4 then some .stop
  else if c = 0x3#4 then some .address
  else if c = 0x4#4 then some .write
  else if c = 0x5#4 then some .read
  else if c = 0x6#4 then some .ack
  else if c = 0x7#4 then some .nack
  else if c = 0x8#4 then some .data
  else none

/-- The string that is a tag's identity (R46, R47). -/
def Tag.name : Tag → String
  | .start => "START"
  | .startOdd => "START(odd)"
  | .stop => "STOP"
  | .address => "ADDRESS"
  | .write => "WRITE"
  | .read => "READ"
  | .ack => "ACK"
  | .nack => "NACK"
  | .data => "DATA"

/-- A level read from a host trace: any value other than 0 or 1 is refused (R63). -/
def Level.ofNat? (n : Nat) : Option Level :=
  if n = 0 then some 0#1 else if n = 1 then some 1#1 else none

/-- The transition code of a step on the levels `scl`, `sda` (R49). -/
def transitionCode (d : Decoder) (scl sda : Level) : TransitionCode :=
  packTransition d.lastScl d.lastSda scl sda

/-- The dispatch word of a step on the levels `scl`, `sda` (R50). -/
def dispatchWord (d : Decoder) (scl sda : Level) : DispatchWord :=
  packWord d.phase.code d.lastScl d.lastSda scl sda

/-- The packed form of a diagnostic, `diag_rec[6:0]` (R48). -/
def Diag.packed (r : Diag) : DispatchWord := packWord r.phase.code r.lastScl r.lastSda r.scl r.sda

/-- "Insert `b` at bit position `k`": bit `k` is replaced and every other bit is unchanged (R89, D8). -/
def insertBit (acc : Byte) (k : Nat) (b : Level) : Byte :=
  (acc &&& ~~~(1#8 <<< k)) ||| (b.zeroExtend 8 <<< k)

/-- `bitPosition + 1`, formed at 4 bits (R15). -/
def bitCount (bitPosition : BitVec 3) : BitVec 4 := bitPosition.zeroExtend 4 + 1#4

/-- The accumulator after an address bit: insertion at `6 - bitPosition` (R33, R82). -/
def insertAddressBit (d : Decoder) (b : Level) : Byte :=
  insertBit d.byteAccumulator (6 - d.bitPosition.toNat) b

/-- The accumulator after a data bit: insertion at `7 - bitPosition` (R33, R86). -/
def insertDataBit (d : Decoder) (b : Level) : Byte :=
  insertBit d.byteAccumulator (7 - d.bitPosition.toNat) b

/-- The tag of a START: `START` in Idle, else `START(odd)` (R72). -/
def startTag (p : Phase) : Tag := if p = .idle then .start else .startOdd

/-- The tag of a direction bit (R84). -/
def directionTag (b : Level) : Tag := if b = 0#1 then .write else .read

/-- The tag of an acknowledge bit (R85). -/
def ackTag (b : Level) : Tag := if b = 0#1 then .ack else .nack

/-- The byte event in an event, if it is one (R45). -/
def Event.asByte? : Event τ → Option (τ × Byte)
  | .byte ts v => some (ts, v)
  | .text _ _ => none

/-- The text event in an event, if it is one (R46). -/
def Event.asText? : Event τ → Option (τ × Tag)
  | .byte _ _ => none
  | .text ts g => some (ts, g)

/-- The timestamp an event carries (R45, R46). -/
def Event.ts : Event τ → τ
  | .byte ts _ => ts
  | .text ts _ => ts

/-- `byte_valid`, `byte_ts` and `byte_value`: the byte event of the transaction, if any (R44). -/
def Output.bytePort (o : Output τ) : Option (τ × Byte) := o.events.findSome? Event.asByte?

/-- The text event of the transaction, if any (R44). -/
def Output.textEvent (o : Output τ) : Option (τ × Tag) := o.events.findSome? Event.asText?

/-- `text_valid`, `text_ts` and `text_tag[3:0]` (R44, R47). -/
def Output.textPort (o : Output τ) : Option (τ × BitVec 4) :=
  o.textEvent.map fun e => (e.1, e.2.code)

/-- `diag_valid` and `diag_rec[6:0]` (R44, R48). -/
def Output.diagPort (o : Output τ) : Option DispatchWord := o.diag.map Diag.packed

/-- The outputs of a transaction with one text event. -/
def Output.ofText (ts : τ) (g : Tag) : Output τ := { events := [.text ts g], diag := none }

/-- The outputs of a completing ADDRBIT: the text event first (R51, R82). -/
def Output.ofAddress (ts : τ) (a : Byte) : Output τ :=
  { events := [.text ts .address, .byte ts a], diag := none }

/-- The outputs of a completing DATABIT: the byte event first (R51, R86). -/
def Output.ofData (ts : τ) (v : Byte) : Output τ :=
  { events := [.byte ts v, .text ts .data], diag := none }

/-- The outputs of an IDLEBIT: no event, one diagnostic (R87). -/
def Output.ofDiag (r : Diag) : Output τ := { events := [], diag := some r }

end Sys2Proof.Machine
end

