-- ==== Sys2Proof/Machine/Ops.lean ====
section
/-!
DEFINITION. The shared operations: updates of the decoder, delivery of a step's outputs to the sinks, the end of every
operation (the unconditional level update of R66), the `create` transaction, and presenting the next transaction. The
block has no exception, so nothing here enters or leaves one (R96, R101).
-/

namespace Sys2Proof.Machine

/- `τ` is the OPEN parameter `Timestamp` (R9): every definition takes it as an argument. -/
variable {τ : Type}

/-- The level update of every step (R66, C2). -/
def Decoder.setLevels (d : Decoder) (scl sda : Level) : Decoder :=
  { d with lastScl := scl, lastSda := sda }

/-- A phase write. -/
def Decoder.setPhase (d : Decoder) (p : Phase) : Decoder := { d with phase := p }

/-- A write of the bit state (R82, R86). -/
def Decoder.setBits (d : Decoder) (bp : BitVec 3) (acc : Byte) : Decoder :=
  { d with bitPosition := bp, byteAccumulator := acc }

/-- "Reset bit state" (R17). -/
def Decoder.resetBits (d : Decoder) : Decoder := d.setBits 0#3 0#8

/-- The text output sink accepts a pair in the order produced; a reserved tag code is a fault of the model (R46, R62). -/
def receiveText (sink : List (τ × Tag)) :
    Option (τ × BitVec 4) → Except Fault (List (τ × Tag))
  | none => .ok sink
  | some (ts, c) =>
    match Tag.ofCode? c with
    | some g => .ok (sink ++ [(ts, g)])
    | none => .error (.reservedTagCode c)

/-- The sinks and the output ports after outputs `o` (R37, R40, R44). -/
def State.At.record (s : State.At τ) (o : Output τ) : State.At τ :=
  { s with
    out := o
    byteSink := s.byteSink ++ o.bytePort.toList
    textSink := s.textSink ++ o.textEvent.toList
    diagSink := s.diagSink ++ o.diag.toList }

/-- A step's outputs delivered to the sinks through the output ports (R40, R44). -/
def deliver (o : Output τ) (s : State.At τ) : Host.Outcome (State.At τ) Fault Refusal :=
  match receiveText s.textSink o.textPort with
  | .error f => .fault f
  | .ok texts =>
    .next { s with
      out := o
      byteSink := s.byteSink ++ o.bytePort.toList
      textSink := texts
      diagSink := s.diagSink ++ o.diag.toList }

/-- The end of every operation: the operation's results and the new levels land together, and the outputs are
delivered (R66). -/
def finish (d : Decoder) (scl sda : Level) (o : Output τ) (s : State.At τ) :
    Host.Outcome (State.At τ) Fault Refusal :=
  deliver o { s with dec := d.setLevels scl sda }

/-- The transition classes that emit nothing and write only the levels (R68 to R71). -/
def silentStep (scl sda : Level) (s : State.At τ) : Host.Outcome (State.At τ) Fault Refusal :=
  finish s.dec scl sda .silent s

/-- The `create` transaction: all five fields, no event, no diagnostic (R116, R118; notes/assumptions/12.md). -/
def createSession (s : State.At τ) : State.At τ := { s with dec := Decoder.create, out := .silent }

/-- A transaction with neither `sample_valid` nor `create`, or none at all: nothing changes, and no output is valid
(R42, R111; notes/assumptions/5.md). -/
def noTransaction (s : State.At τ) : State.At τ := { s with out := .silent }

/-- What a transaction asks for (R42). -/
inductive Request where
  | nothing | sample | create | both
  deriving DecidableEq, Repr

/-- The request of a port bundle (R42). -/
def InPorts.request (p : InPorts τ) : Request :=
  match p.sampleValid, p.create with
  | false, false => .nothing
  | true, false => .sample
  | false, true => .create
  | true, true => .both

/-- A port bundle that presents a sample (R41, R42). -/
def InPorts.sample (ts : τ) (scl sda : Level) : InPorts τ :=
  { sampleValid := true, create := false, sclIn := scl, sdaIn := sda, tsIn := ts }

/-- A port bundle that asks for `create` (R42). Its level and timestamp ports are not read. -/
def InPorts.creating (ts : τ) (scl sda : Level) : InPorts τ :=
  { sampleValid := false, create := true, sclIn := scl, sdaIn := sda, tsIn := ts }

/-- The host presents the transaction `p`; `rest` is what it will present later (R42, R43). -/
def State.At.present (s : State.At τ) (p : InPorts τ) (rest : List (InPorts τ)) : State.At τ :=
  { s with port := p, input := rest }

/-- The dispatch word of the sample on the ports (R50). -/
def State.At.word (s : State.At τ) : DispatchWord := dispatchWord s.dec s.port.sclIn s.port.sdaIn

/-- The operation of the sample on the ports: the row its dispatch word selects (R66), or why there is none (R61). -/
def selectOp (s : State.At τ) : Except Refusal Instr :=
  match decode s.word with
  | .error (.noRow w) => .error (.noRow w)
  | .ok i => if i.wellFormed then .ok i else .error (.reservedPhase s.word)

/-- The state whose next step runs the dispatch word `w`: its phase and last levels in the decoder, its levels in a
sample presented next. A reserved phase code cannot be placed (R61). -/
def placeWord (w : DispatchWord) (s : State.At τ) : State.At τ :=
  match Phase.ofCode? (wordPhase w) with
  | none => s
  | some p =>
    { s with
      dec := { s.dec with phase := p, lastScl := wordBit w 3, lastSda := wordBit w 2 }
      input := InPorts.sample s.port.tsIn (wordBit w 1) (wordBit w 0) :: s.input }

end Sys2Proof.Machine
end

