-- ==== Sys2Proof/Machine/Classifier.lean ====
section
/-!
DEFINITION. The meanings of the transition classes other than a BITSAMPLE (40_classifier.md): NOCHG, CLKFALL, SETUP,
START and STOP. The levels `scl` and `sda` of the sample are bits of the dispatch word (R49, R50; notes/assumptions/11.md);
the phase, the bit state and the timestamp are read from the state.
-/

namespace Sys2Proof.Machine

/- `τ` is the OPEN parameter `Timestamp` (R9): every definition takes it as an argument. -/
variable {τ : Type}

/-- NOCHG.00 (R68). -/
def execNochg00 (s : State.At τ) : Host.Outcome (State.At τ) Fault Refusal := silentStep 0#1 0#1 s

/-- NOCHG.01 (R68). -/
def execNochg01 (s : State.At τ) : Host.Outcome (State.At τ) Fault Refusal := silentStep 0#1 1#1 s

/-- NOCHG.10 (R68). -/
def execNochg10 (s : State.At τ) : Host.Outcome (State.At τ) Fault Refusal := silentStep 1#1 0#1 s

/-- NOCHG.11 (R68). -/
def execNochg11 (s : State.At τ) : Host.Outcome (State.At τ) Fault Refusal := silentStep 1#1 1#1 s

/-- CLKFALL: SCL falls, with any SDA (R69). -/
def execClkfall (sda : Level) (s : State.At τ) : Host.Outcome (State.At τ) Fault Refusal := silentStep 0#1 sda s

/-- SETUP.R: SDA rises while SCL stays low (R70). -/
def execSetupR (s : State.At τ) : Host.Outcome (State.At τ) Fault Refusal := silentStep 0#1 1#1 s

/-- SETUP.F: SDA falls while SCL stays low (R71). -/
def execSetupF (s : State.At τ) : Host.Outcome (State.At τ) Fault Refusal := silentStep 0#1 0#1 s

/-- START: SDA falls while SCL stays high (R72, R97). -/
def execStart (s : State.At τ) : Host.Outcome (State.At τ) Fault Refusal :=
  finish (s.dec.setPhase .readAddress).resetBits 1#1 0#1 (.ofText s.port.tsIn (startTag s.dec.phase)) s

/-- STOP: SDA rises while SCL stays high; the bit state is not reset (R73, C6). -/
def execStop (s : State.At τ) : Host.Outcome (State.At τ) Fault Refusal :=
  finish (s.dec.setPhase .idle) 1#1 1#1 (.ofText s.port.tsIn .stop) s

end Sys2Proof.Machine
end

