-- ==== Sys2Proof/Machine/PhaseFsm.lean ====
section
/-!
DEFINITION. The meanings of the five operations of a BITSAMPLE (41_phase_fsm.md): SCL rises, and the sampled bit is the
new SDA (R56, R74). `lastSda` is not consulted, but for the diagnostic.
-/

namespace Sys2Proof.Machine

/- `τ` is the OPEN parameter `Timestamp` (R9): every definition takes it as an argument. -/
variable {τ : Type}

/-- IDLEBIT: the unhandled combination; a diagnostic and the level update (R87, R98, C2). -/
def execIdlebit (sda : Level) (s : State.At τ) : Host.Outcome (State.At τ) Fault Refusal :=
  finish s.dec 1#1 sda
    (.ofDiag { phase := s.dec.phase, lastScl := s.dec.lastScl, lastSda := s.dec.lastSda, scl := 1#1, sda := sda }) s

/-- ADDRBIT: one address bit; the seventh completes the field (R82). A `bitPosition` of 7 is refused (D13;
notes/assumptions/7.md). -/
def execAddrbit (sda : Level) (s : State.At τ) : Host.Outcome (State.At τ) Fault Refusal :=
  if s.dec.bitPosition = 7#3 then .refused .addressOverrun
  else
    let acc := insertAddressBit s.dec sda
    let n := bitCount s.dec.bitPosition
    if n = 7#4 then
      finish (s.dec.setPhase .readDirection).resetBits 1#1 sda (.ofAddress s.port.tsIn acc) s
    else
      finish ((s.dec.setPhase .readAddress).setBits (n.truncate 3) acc) 1#1 sda .silent s

/-- DIRBIT: the read/write bit; the bit state is kept (R84). -/
def execDirbit (sda : Level) (s : State.At τ) : Host.Outcome (State.At τ) Fault Refusal :=
  finish (s.dec.setPhase .readAck) 1#1 sda (.ofText s.port.tsIn (directionTag sda)) s

/-- ACKBIT: an acknowledge bit (R85). -/
def execAckbit (sda : Level) (s : State.At τ) : Host.Outcome (State.At τ) Fault Refusal :=
  finish (s.dec.setPhase .readData).resetBits 1#1 sda (.ofText s.port.tsIn (ackTag sda)) s

/-- DATABIT: one data bit; the eighth completes the byte (R86). -/
def execDatabit (sda : Level) (s : State.At τ) : Host.Outcome (State.At τ) Fault Refusal :=
  let acc := insertDataBit s.dec sda
  let n := bitCount s.dec.bitPosition
  if n = 8#4 then
    finish (s.dec.setPhase .readAck).resetBits 1#1 sda (.ofData s.port.tsIn acc) s
  else
    finish ((s.dec.setPhase .readData).setBits (n.truncate 3) acc) 1#1 sda .silent s

end Sys2Proof.Machine
end

