-- ==== Sys2Proof/Machine/Dispatch.lean ====
section
/-!
DEFINITION. One arm per operation of the opcode table (R54, R66 step 3).
-/

namespace Sys2Proof.Machine

def exec (i : Instr) (s : State) : Host.Outcome State Fault Refusal :=
  match i with
  | .nochg00 _ => Sys2Proof.Machine.execNochg00 s
  | .nochg01 _ => Sys2Proof.Machine.execNochg01 s
  | .nochg10 _ => Sys2Proof.Machine.execNochg10 s
  | .nochg11 _ => Sys2Proof.Machine.execNochg11 s
  | .clkfall _ _ sda => Sys2Proof.Machine.execClkfall sda s
  | .setupR _ => Sys2Proof.Machine.execSetupR s
  | .setupF _ => Sys2Proof.Machine.execSetupF s
  | .start _ => Sys2Proof.Machine.execStart s
  | .stop _ => Sys2Proof.Machine.execStop s
  | .idlebit _ sda => Sys2Proof.Machine.execIdlebit sda s
  | .addrbit _ sda => Sys2Proof.Machine.execAddrbit sda s
  | .dirbit _ sda => Sys2Proof.Machine.execDirbit sda s
  | .ackbit _ sda => Sys2Proof.Machine.execAckbit sda s
  | .databit _ sda => Sys2Proof.Machine.execDatabit sda s

end Sys2Proof.Machine
end

