-- ==== Sys2Proof/Machine/Step.lean ====
section
/-!
DEFINITION. One step of the machine: the host presents its next transaction, and the block performs what it asks for
(R42, R43, R66).
-/

namespace Sys2Proof.Machine

/-- One sample: the operation that the dispatch word selects, executed (R66). -/
def runSample (s : State) : Host.Outcome State Fault Refusal :=
  match selectOp s with
  | .ok i => exec i s
  | .error r => .refused r

/-- One transaction on the ports (R42). -/
def transact (s : State) : Host.Outcome State Fault Refusal :=
  match s.port.request with
  | .nothing => .next (noTransaction s)
  | .sample => runSample s
  | .create => .next (createSession s)
  | .both => .refused .sampleAndCreate

/-- The machine's step: the next transaction of the host, or none when the host presents nothing (R43, R111). -/
def step (s : State) : Host.Outcome State Fault Refusal :=
  match s.input with
  | [] => .next (noTransaction s)
  | p :: rest => transact (s.present p rest)

/-- The state with the dispatch word of the bits `w` placed where the next step fetches it. -/
def State.withFetchWord (s : State) (nbits w : Nat) : State :=
  match wordOfNat? nbits w with
  | some v => placeWord v s
  | none => s

end Sys2Proof.Machine
end

