-- ==== Sys2Proof/Machine/Procedure.lean ====
section
/-!
DEFINITION. The step procedure of R66 as the spec writes it: the classifier (R67), the operation of each class and phase
(R68 to R74, R81 to R87), and the level update. The machine dispatches by the opcode table instead; this is the clear
form it is compared with, and the pure function of R43. It stands for every type of timestamps, and so does the machine
built on it here: the model as a function of its OPEN parameter (R9).
-/

namespace Sys2Proof.Machine

/- `τ` is the OPEN parameter `Timestamp` (R9): every definition takes it as an argument. -/
variable {τ : Type}

/-- The classifier's verdicts (R67). -/
inductive TransitionClass where
  | nochg | clkfall | setup | start | stop
  | bitsample (b : Level)
  deriving DecidableEq, Repr

/-- The classifier: the first matching case of R67, in its order. -/
def classify (t : TransitionCode) : TransitionClass :=
  let ls := t.extractLsb' 3 1
  let ld := t.extractLsb' 2 1
  let s := t.extractLsb' 1 1
  let d := t.extractLsb' 0 1
  if ls = s ∧ ld = d then .nochg
  else if ls = 1#1 ∧ s = 0#1 then .clkfall
  else if s = 0#1 then .setup
  else if ls = 1#1 ∧ ld = 1#1 ∧ d = 0#1 then .start
  else if ls = 1#1 ∧ ld = 0#1 ∧ d = 1#1 then .stop
  else .bitsample d

/-- What an operation gives before the level update: the outputs, the next phase and the next bit state (R66). -/
structure Operated (τ : Type) where
  out : Output τ
  phase : Phase
  bitPosition : BitVec 3
  byteAccumulator : Byte
  deriving DecidableEq, Repr

/-- The operation of a class that changes nothing but the levels (R68 to R71). -/
def Decoder.unchanged (d : Decoder) (o : Output τ) : Operated τ :=
  { out := o, phase := d.phase, bitPosition := d.bitPosition, byteAccumulator := d.byteAccumulator }

/-- The phase action of a BITSAMPLE (R74, R81 to R87); none where the model refuses (D13). -/
def phaseAction (d : Decoder) (b : Level) (ts : τ) : Option (Operated τ) :=
  match d.phase with
  | .idle => some (d.unchanged (.ofDiag
      { phase := d.phase, lastScl := d.lastScl, lastSda := d.lastSda, scl := 1#1, sda := b }))
  | .readAddress =>
    if d.bitPosition.toNat = 7 then none
    else
      let acc := insertBit d.byteAccumulator (6 - d.bitPosition.toNat) b
      if d.bitPosition.toNat + 1 = 7 then some ⟨.ofAddress ts acc, .readDirection, 0#3, 0#8⟩
      else some ⟨.silent, .readAddress, d.bitPosition + 1#3, acc⟩
  | .readDirection =>
    some ⟨.ofText ts (if b = 0#1 then .write else .read), .readAck, d.bitPosition, d.byteAccumulator⟩
  | .readAck => some ⟨.ofText ts (if b = 0#1 then .ack else .nack), .readData, 0#3, 0#8⟩
  | .readData =>
    let acc := insertBit d.byteAccumulator (7 - d.bitPosition.toNat) b
    if d.bitPosition.toNat + 1 = 8 then some ⟨.ofData ts acc, .readAck, 0#3, 0#8⟩
    else some ⟨.silent, .readData, d.bitPosition + 1#3, acc⟩

/-- The one operation of a step (R66 step 3). -/
def operate (c : TransitionClass) (d : Decoder) (ts : τ) : Option (Operated τ) :=
  match c with
  | .nochg => some (d.unchanged .silent)
  | .clkfall => some (d.unchanged .silent)
  | .setup => some (d.unchanged .silent)
  | .start => some ⟨.ofText ts (if d.phase = .idle then .start else .startOdd), .readAddress, 0#3, 0#8⟩
  | .stop => some ⟨.ofText ts .stop, .idle, d.bitPosition, d.byteAccumulator⟩
  | .bitsample b => phaseAction d b ts

/-- The step procedure of R66: the decoder after the step and its outputs, the pure function of R43. -/
def stepProcedure (d : Decoder) (scl sda : Level) (ts : τ) : Option (Decoder × Output τ) :=
  match operate (classify (transitionCode d scl sda)) d ts with
  | none => none
  | some r =>
    some ({ phase := r.phase, lastScl := scl, lastSda := sda, bitPosition := r.bitPosition,
            byteAccumulator := r.byteAccumulator }, r.out)

/-- One sample on the ports, by the step procedure; where that has no result the model refuses (R82, D13). -/
def sampleProcedure (s : State.At τ) : Host.Outcome (State.At τ) Fault Refusal :=
  match stepProcedure s.dec s.port.sclIn s.port.sdaIn s.port.tsIn with
  | none => .refused .addressOverrun
  | some (d, o) => .next (State.At.record { s with dec := d } o)

/-- One transaction on the ports, by the step procedure (R42). -/
def transactProcedure (s : State.At τ) : Host.Outcome (State.At τ) Fault Refusal :=
  match s.port.request with
  | .nothing => .next (noTransaction s)
  | .sample => sampleProcedure s
  | .create => .next (createSession s)
  | .both => .refused .sampleAndCreate

/-- The machine's step by the step procedure, for timestamps of any type (R9, R43, R66). -/
def procedureStep (s : State.At τ) : Host.Outcome (State.At τ) Fault Refusal :=
  match s.input with
  | [] => .next (noTransaction s)
  | p :: rest => transactProcedure (s.present p rest)

/-- The model as R9 asks for it, with the OPEN parameter `Timestamp` as an argument; `ts` is what the timestamp port holds at
reset (notes/assumptions/3.md). -/
def machineAt (τ : Type) (ts : τ) : Host.Core :=
  { State := State.At τ, Fault := Fault, Refusal := Refusal, step := procedureStep, reset := State.At.reset ts }

end Sys2Proof.Machine
end

