-- ==== Sys2Proof/Machine/Stimulus.lean ====
section
/-!
DEFINITION. The stimulus language of R64 and R65: samples, streams with index timestamps, and the bus pseudo-instructions
with their expansions. No behaviour of the block rests on it (D15).
-/

namespace Sys2Proof.Machine

/-- The levels of one sample, SCL first (R64). -/
structure Levels where
  scl : Level
  sda : Level
  deriving DecidableEq, Repr

/-- The 2-bit encoding of a sample (R64). -/
def Levels.code (l : Levels) : BitVec 2 := l.scl ++ l.sda

/-- The bus pseudo-instructions (R65). -/
inductive Pseudo where
  | hold
  | startBus
  | bit (b : Level)
  | addr (a : BitVec 7)
  | byte (v : Byte)
  | stopBus
  | stopDirect
  | restartBus
  deriving DecidableEq, Repr

/-- The bits of a number, most significant first (R33, R65). -/
def bitsMsbFirst {n : Nat} (v : BitVec n) : List Level :=
  (List.range n).reverse.map fun k => v.extractLsb' k 1

/-- The samples of `BIT b` after SDA level `x`, with SCL high (R65). -/
def expandBit (x b : Level) : List Levels :=
  [⟨0#1, x⟩] ++ (if b = x then [] else [⟨0#1, b⟩]) ++ [⟨1#1, b⟩]

/-- The samples of a row of bits, each starting from the SDA level of the one before it (R65). -/
def expandBits (x : Level) : List Level → List Levels
  | [] => []
  | b :: bs => expandBit x b ++ expandBits b bs

/-- The expansion of a pseudo-instruction after the levels `l`; none where its precondition does not hold (R65). -/
def Pseudo.expand (p : Pseudo) (l : Levels) : Option (List Levels) :=
  match p with
  | .hold => some [l]
  | .startBus => if l = ⟨1#1, 1#1⟩ then some [⟨1#1, 0#1⟩] else none
  | .bit b => if l.scl = 1#1 then some (expandBit l.sda b) else none
  | .addr a => if l.scl = 1#1 then some (expandBits l.sda (bitsMsbFirst a)) else none
  | .byte v => if l.scl = 1#1 then some (expandBits l.sda (bitsMsbFirst v)) else none
  | .stopBus => if l.scl = 1#1 then some (expandBit l.sda 0#1 ++ [⟨1#1, 1#1⟩]) else none
  | .stopDirect => if l = ⟨1#1, 0#1⟩ then some [⟨1#1, 1#1⟩] else none
  | .restartBus => if l.scl = 1#1 then some (expandBit l.sda 1#1 ++ [⟨1#1, 0#1⟩]) else none

/-- The levels after a pseudo-instruction, the last column of R65. -/
def Pseudo.endLevels (p : Pseudo) (l : Levels) : Levels :=
  match p with
  | .hold => l
  | .startBus => ⟨1#1, 0#1⟩
  | .bit b => ⟨1#1, b⟩
  | .addr a => ⟨1#1, a.extractLsb' 0 1⟩
  | .byte v => ⟨1#1, v.extractLsb' 0 1⟩
  | .stopBus => ⟨1#1, 1#1⟩
  | .stopDirect => ⟨1#1, 1#1⟩
  | .restartBus => ⟨1#1, 0#1⟩

/-- The samples of a list of pseudo-instructions after the levels `l` (R65). -/
def expandAll (l : Levels) : List Pseudo → Option (List Levels)
  | [] => some []
  | p :: ps =>
    match p.expand l, expandAll (p.endLevels l) ps with
    | some xs, some ys => some (xs ++ ys)
    | _, _ => none

/-- The transactions of a stream whose first sample has timestamp `t`, each later one a tick later (R64). -/
def streamFrom (t : Nat) : List Levels → List (InPorts Nat)
  | [] => []
  | l :: ls => InPorts.sample t l.scl l.sda :: streamFrom (t + 1) ls

/-- A machine right after `create` to which the host will present the stream `ls` (R64, R120). -/
def State.load (ls : List Levels) : State := { State.reset with input := streamFrom 0 ls }

end Sys2Proof.Machine
end

