-- ==== Sys2Proof/Safety.lean ====
section
/-!
DEFINITION. What the statements are stated with: the invariant of R19, admitted streams, the event sequences of R51, the
renaming of timestamps, the equality of all that is observable, and the execution of a row of operations.
-/

namespace Sys2Proof.Machine

/-- The invariant of R19 items 1 to 5 over the decoder; item 1 holds by the type of `phase`, and Idle asks nothing. -/
abbrev Decoder.Inv (d : Decoder) : Prop :=
  (d.phase = .readAddress →
    d.bitPosition.toNat ≤ 6 ∧ d.byteAccumulator.toNat < 128 ∧
      d.byteAccumulator.toNat % 2 ^ (7 - d.bitPosition.toNat) = 0) ∧
  (d.phase = .readDirection → d.bitPosition = 0#3 ∧ d.byteAccumulator = 0#8) ∧
  (d.phase = .readAck → d.bitPosition = 0#3 ∧ d.byteAccumulator = 0#8) ∧
  (d.phase = .readData →
    d.byteAccumulator.toNat % 2 ^ (8 - d.bitPosition.toNat) = 0)

/-- The invariant over the machine. -/
abbrev State.At.Inv {τ : Type} (s : State.At τ) : Prop := s.dec.Inv

/-- A stream the interface admits: no transaction asserts both `sample_valid` and `create` (R42). -/
abbrev State.At.Admitted {τ : Type} (s : State.At τ) : Prop := ∀ p ∈ s.input, p.request ≠ .both

/-- The event sequences a step may emit, with the step's timestamp `ts`, and the diagnostic beside them (R51, R77). -/
def Output.Permitted {τ : Type} (ts : τ) (o : Output τ) : Prop :=
  (o.events = []) ∨
  (∃ g, o.events = [.text ts g] ∧ o.diag = none) ∨
  (∃ a, o.events = [.text ts .address, .byte ts a] ∧ o.diag = none) ∨
  (∃ v, o.events = [.byte ts v, .text ts .data] ∧ o.diag = none)

/-- The next transaction of `s` is the sample `(ts, scl, sda)`, and `rest` follows it. -/
abbrev State.At.Presents {τ : Type} (s : State.At τ) (ts : τ) (scl sda : Level) (rest : List (InPorts τ)) : Prop :=
  s.input = InPorts.sample ts scl sda :: rest

/-- The phase after a step on the levels `scl`, `sda`, read off the table of R81. -/
def nextPhase (d : Decoder) (scl sda : Level) : Phase :=
  match classify (transitionCode d scl sda) with
  | .nochg => d.phase
  | .clkfall => d.phase
  | .setup => d.phase
  | .start => .readAddress
  | .stop => .idle
  | .bitsample _ =>
    match d.phase with
    | .idle => .idle
    | .readAddress => if d.bitPosition.toNat + 1 = 7 then .readDirection else .readAddress
    | .readDirection => .readAck
    | .readAck => .readData
    | .readData => if d.bitPosition.toNat + 1 = 8 then .readAck else .readData

section mapTs

variable {σ τ : Type}

/-- A renaming of the timestamp of an event, into the same type of timestamps or another (R9, R79). -/
def Event.mapTs (f : σ → τ) : Event σ → Event τ
  | .byte ts v => .byte (f ts) v
  | .text ts g => .text (f ts) g

/-- A renaming of the timestamps of a transaction's outputs; a diagnostic has none (R48). -/
def Output.mapTs (f : σ → τ) (o : Output σ) : Output τ :=
  { events := o.events.map (Event.mapTs f), diag := o.diag }

/-- A renaming of the timestamp port. -/
def InPorts.mapTs (f : σ → τ) (p : InPorts σ) : InPorts τ :=
  { sampleValid := p.sampleValid, create := p.create, sclIn := p.sclIn, sdaIn := p.sdaIn, tsIn := f p.tsIn }

/-- A renaming of every timestamp in the machine. -/
def State.At.mapTs (f : σ → τ) (s : State.At σ) : State.At τ :=
  { dec := s.dec
    input := s.input.map (InPorts.mapTs f)
    port := s.port.mapTs f
    out := s.out.mapTs f
    byteSink := s.byteSink.map fun e => (f e.1, e.2)
    textSink := s.textSink.map fun e => (f e.1, e.2)
    diagSink := s.diagSink }

/-- A function applied to the next state of an outcome; a stop stays as it is. -/
def mapNext (g : State.At σ → State.At τ) :
    Host.Outcome (State.At σ) Fault Refusal → Host.Outcome (State.At τ) Fault Refusal
  | .next s => .next (g s)
  | .fault r => .fault r
  | .refused r => .refused r

end mapTs

/-- Two outcomes agree: both go on to related states, or both stop for the same reason. -/
def Agree (rel : State → State → Prop) :
    Host.Outcome State Fault Refusal → Host.Outcome State Fault Refusal → Prop
  | .next s, .next t => rel s t
  | .fault a, .fault b => a = b
  | .refused a, .refused b => a = b
  | _, _ => False

/-- Two machines that differ at most in the bit state left in Idle (R19 item 5, R20): ports, outputs and sinks are
equal. -/
abbrev State.At.SameButIdleRemnant {τ : Type} (s t : State.At τ) : Prop :=
  s.input = t.input ∧ s.port = t.port ∧ s.out = t.out ∧ s.byteSink = t.byteSink ∧
  s.textSink = t.textSink ∧ s.diagSink = t.diagSink ∧
  s.dec.phase = t.dec.phase ∧ s.dec.lastScl = t.dec.lastScl ∧ s.dec.lastSda = t.dec.lastSda ∧
  (s.dec.phase ≠ .idle →
    s.dec.bitPosition = t.dec.bitPosition ∧ s.dec.byteAccumulator = t.dec.byteAccumulator)

/-- `n` steps, one after the other, stopping at the first stop. -/
def stepN : Nat → State → Host.Outcome State Fault Refusal
  | 0, s => .next s
  | n + 1, s =>
    match step s with
    | .next t => stepN n t
    | .fault r => .fault r
    | .refused r => .refused r

/-- The operations `is` executed one after the other, stopping at the first stop. -/
def execAll : List Instr → State → Host.Outcome State Fault Refusal
  | [], s => .next s
  | i :: is, s =>
    match exec i s with
    | .next t => execAll is t
    | .fault r => .fault r
    | .refused r => .refused r

end Sys2Proof.Machine
end

