-- ==== Sys2Proof/Certificates/Slice0/Obligations.lean ====
section
/-!
DEFINITION. The statements for the provers. Each docstring names the rule of the spec it formalises, or the sections it
rests on.
-/

open Sys2Proof Sys2Proof.Machine

/-! ## Encoding -/

/-- Every operation, with every value of its operands, is what its own dispatch word decodes to (30_encoding.md §3, §4). -/
def Obligations.DecodeOfEncodeIsTheOperation : Prop :=
  ∀ i : Instr, decode (encode i) = .ok i

/-- A word that decodes is the word of the operation it decodes to: no bit of it is dropped (30_encoding.md §3, §4). -/
def Obligations.EncodeOfDecodeIsTheWord : Prop :=
  ∀ (w : DispatchWord) (i : Instr), decode w = .ok i → encode i = w

/-- Words written out from the pattern column of R54 decode to the operations they stand for (30_encoding.md §4). -/
def Obligations.PatternWordsDecode : Prop :=
  decode 0b0000000#7 = .ok (.nochg00 0b000#3) ∧
  decode 0b1000101#7 = .ok (.nochg01 0b100#3) ∧
  decode 0b0011010#7 = .ok (.nochg10 0b001#3) ∧
  decode 0b0101111#7 = .ok (.nochg11 0b010#3) ∧
  decode 0b0111001#7 = .ok (.clkfall 0b011#3 0#1 1#1) ∧
  decode 0b0010001#7 = .ok (.setupR 0b001#3) ∧
  decode 0b1000100#7 = .ok (.setupF 0b100#3) ∧
  decode 0b0001110#7 = .ok (.start 0b000#3) ∧
  decode 0b0111011#7 = .ok (.stop 0b011#3) ∧
  decode 0b0000110#7 = .ok (.idlebit 1#1 0#1) ∧
  decode 0b0010011#7 = .ok (.addrbit 0#1 1#1) ∧
  decode 0b0100010#7 = .ok (.dirbit 0#1 0#1) ∧
  decode 0b0110111#7 = .ok (.ackbit 1#1 1#1) ∧
  decode 0b1000110#7 = .ok (.databit 1#1 0#1)

/-- R55: exactly one row matches a word of a legal phase; the sizes of the groups of T; under a reserved phase code only
the rows that are no BITSAMPLE match. -/
def Obligations.ExactlyOneRowPerWord : Prop :=
  (∀ w : DispatchWord, (wordPhase w).toNat ≤ 4 → (Opcode.all.filter (·.selects w)).length = 1) ∧
  (let verdicts := (List.range 16).map fun k => classify (BitVec.ofNat 4 k)
   verdicts.count .nochg = 4 ∧ verdicts.count .clkfall = 4 ∧ verdicts.count .setup = 2 ∧
   verdicts.count .start = 1 ∧ verdicts.count .stop = 1 ∧
   verdicts.count (.bitsample 0#1) + verdicts.count (.bitsample 1#1) = 4) ∧
  (∀ w : DispatchWord, 5 ≤ (wordPhase w).toNat →
    ((∃ b, classify (wordTransition w) = .bitsample b) → ∀ o ∈ Opcode.all, o.selects w = false) ∧
    ((¬ ∃ b, classify (wordTransition w) = .bitsample b) →
      (Opcode.all.filter (·.selects w)).length = 1 ∧
      ∀ o ∈ [Opcode.idlebit, .addrbit, .dirbit, .ackbit, .databit], o.selects w = false))

/-- R52: the classifier's verdict for each of the 16 values of T, in order. -/
def Obligations.ClassifierVerdicts : Prop :=
  (List.range 16).map (fun k => classify (BitVec.ofNat 4 k)) =
    [.nochg, .setup, .bitsample 0#1, .bitsample 1#1,
     .setup, .nochg, .bitsample 0#1, .bitsample 1#1,
     .clkfall, .clkfall, .nochg, .stop,
     .clkfall, .clkfall, .start, .nochg]

/-- R59: five phase codes and nine tag codes are legal, and a legal code is read back as what it encodes; which code each
phase and each tag has (R13 and R47, to which R59 refers). -/
def Obligations.LegalPhaseAndTagCodes : Prop :=
  (Phase.idle.code = 0b000#3 ∧ Phase.readAddress.code = 0b001#3 ∧ Phase.readDirection.code = 0b010#3 ∧
    Phase.readAck.code = 0b011#3 ∧ Phase.readData.code = 0b100#3) ∧
  (Tag.start.code = 0x0#4 ∧ Tag.startOdd.code = 0x1#4 ∧ Tag.stop.code = 0x2#4 ∧ Tag.address.code = 0x3#4 ∧
    Tag.write.code = 0x4#4 ∧ Tag.read.code = 0x5#4 ∧ Tag.ack.code = 0x6#4 ∧ Tag.nack.code = 0x7#4 ∧
    Tag.data.code = 0x8#4) ∧
  (∀ c : BitVec 3, (Phase.ofCode? c).isSome = true ↔ c.toNat ≤ 4) ∧
  (∀ (c : BitVec 3) (p : Phase), Phase.ofCode? c = some p ↔ p.code = c) ∧
  (∀ c : BitVec 4, (Tag.ofCode? c).isSome = true ↔ c.toNat ≤ 8) ∧
  (∀ (c : BitVec 4) (g : Tag), Tag.ofCode? c = some g ↔ g.code = c)

/-- A word with a reserved phase code is no well-formed operation and no phase has its code: it has no meaning
(30_encoding.md §6). The enumeration of the phases is the spec's recommended form (notes/assumptions/9.md). -/
def Obligations.ReservedPhaseHasNoMeaning : Prop :=
  ∀ w : DispatchWord, 5 ≤ (wordPhase w).toNat →
    Phase.ofCode? (wordPhase w) = none ∧ ∀ i, decode w = .ok i → i.wellFormed = false

/-- R63: a transcriber of a host trace admits 0 and 1 as levels and refuses every other value. -/
def Obligations.OnlyBitsAreLevels : Prop :=
  Level.ofNat? 0 = some 0#1 ∧ Level.ofNat? 1 = some 1#1 ∧ ∀ n, 2 ≤ n → Level.ofNat? n = none

/-! ## The step -/

/-- A step on a presented sample is the decoded operation, executed after the transaction has been taken from the stream
and put on the ports (40_classifier.md §1). -/
def Obligations.StepExecutesDecodedOperation : Prop :=
  ∀ (s : State) (p : InPorts Timestamp) (rest : List (InPorts Timestamp)) (i : Instr),
    s.input = p :: rest → p.request = .sample → decode (s.present p rest).word = .ok i → i.wellFormed = true →
    step s = exec i (s.present p rest)

/-- Every decoder state and every sample select exactly one operation, whose word is the step's dispatch word
(30_encoding.md §4, §6). -/
def Obligations.EverySampleSelectsAnOperation : Prop :=
  ∀ (d : Decoder) (scl sda : Level),
    ∃ i, decode (dispatchWord d scl sda) = .ok i ∧ i.wellFormed = true ∧ encode i = dispatchWord d scl sda

/-- R42: what a transaction does by which of `sample_valid` and `create` it asserts. -/
def Obligations.TransactionByRequest : Prop :=
  ∀ (s : State) (p : InPorts Timestamp) (rest : List (InPorts Timestamp)), s.input = p :: rest →
    (p.sampleValid = false ∧ p.create = false → ∃ t, step s = .next t ∧
      t.dec = s.dec ∧ t.input = rest ∧ t.byteSink = s.byteSink ∧ t.textSink = s.textSink ∧
      t.diagSink = s.diagSink) ∧
    (p.sampleValid = false ∧ p.create = true → step s = .next (createSession (s.present p rest))) ∧
    (p.sampleValid = true ∧ p.create = false → step s = runSample (s.present p rest)) ∧
    (p.sampleValid = true ∧ p.create = true → step s = .refused .sampleAndCreate)

/-- `create` at any step boundary answers the state with the five fields of R116, no output, and nothing else changed
(70_reset_and_hazards.md §1). That the three sinks and the rest of the stream are unchanged is DEDUCED, the model's choice
(notes/assumptions/12.md), and the spec does not say it; CreateWritesTheFiveFields states the spec's part alone. -/
def Obligations.CreateWritesEveryField : Prop :=
  ∀ (s : State) (ts : Timestamp) (scl sda : Level) (rest : List (InPorts Timestamp)),
    s.input = InPorts.creating ts scl sda :: rest →
    step s = .next
      { dec := { phase := .idle, lastScl := 1#1, lastSda := 1#1, bitPosition := 0#3, byteAccumulator := 0#8 }
        input := rest
        port := InPorts.creating ts scl sda
        out := { events := [], diag := none }
        byteSink := s.byteSink
        textSink := s.textSink
        diagSink := s.diagSink }

/-- R117: the reset state of every piece of the block's state, and of its outputs. -/
def Obligations.ResetState : Prop :=
  State.reset.dec.phase = .idle ∧ State.reset.dec.phase.code = 0b000#3 ∧
  State.reset.dec.lastScl = 1#1 ∧ State.reset.dec.lastSda = 1#1 ∧
  State.reset.dec.bitPosition = 0#3 ∧ State.reset.dec.byteAccumulator = 0#8 ∧
  State.reset.out.events = [] ∧ State.reset.out.diag = none

/-- Only a sample or `create` changes the decoder (60_exceptions.md §4). That a step with no transaction to present answers
a next state at all, with no valid output and the sinks as they were, is the model's convention, DEDUCED
(notes/assumptions/5.md): the spec says that the block then holds its state and emits nothing, not what its output ports
show. -/
def Obligations.OnlySampleOrCreateChangesTheDecoder : Prop :=
  (∀ s : State, s.input = [] → ∃ t, step s = .next t ∧
    t.dec = s.dec ∧ t.input = [] ∧ t.out.events = [] ∧ t.out.diag = none ∧
    t.byteSink = s.byteSink ∧ t.textSink = s.textSink ∧ t.diagSink = s.diagSink) ∧
  (∀ s t : State, step s = .next t → t.dec ≠ s.dec →
    ∃ p rest, s.input = p :: rest ∧ (p.request = .sample ∨ p.request = .create))

/-- R74: a rising edge of SCL runs the operation of the phase, with the new SDA as the sampled bit; the old SDA is not
consulted for the choice. -/
def Obligations.RisingEdgeDispatchesOnPhase : Prop :=
  ∀ (s : State) (ts : Timestamp) (b : Level) (rest : List (InPorts Timestamp)),
    s.dec.lastScl = 0#1 → s.Presents ts 1#1 b rest →
    step s =
      (match s.dec.phase with
        | .idle => exec (.idlebit s.dec.lastSda b)
        | .readAddress => exec (.addrbit s.dec.lastSda b)
        | .readDirection => exec (.dirbit s.dec.lastSda b)
        | .readAck => exec (.ackbit s.dec.lastSda b)
        | .readData => exec (.databit s.dec.lastSda b)) (s.present (InPorts.sample ts 1#1 b) rest)

/-- R66: the machine's step, which dispatches by the opcode table, is the step procedure the spec writes: classify,
operate, write the results and the new levels together. -/
def Obligations.StepIsTheStepProcedure : Prop :=
  ∀ (s : State) (ts : Timestamp) (scl sda : Level) (rest : List (InPorts Timestamp)), s.Presents ts scl sda rest →
    (∀ d o, stepProcedure s.dec scl sda ts = some (d, o) →
      step s = .next (State.At.record { s.present (InPorts.sample ts scl sda) rest with dec := d } o)) ∧
    (s.Inv → (stepProcedure s.dec scl sda ts).isSome = true)

/-! ## The transition classes -/

/-- The four NOCHG operations emit nothing and write only the levels of their own word, in every state; the phase, the
bit state, the stream, the ports and the sinks are unchanged (40_classifier.md §2). -/
def Obligations.NochgResult : Prop :=
  ∀ (phase : BitVec 3) (s : State),
    exec (.nochg00 phase) s =
      .next { s with dec := { s.dec with lastScl := 0#1, lastSda := 0#1 }, out := { events := [], diag := none } } ∧
    exec (.nochg01 phase) s =
      .next { s with dec := { s.dec with lastScl := 0#1, lastSda := 1#1 }, out := { events := [], diag := none } } ∧
    exec (.nochg10 phase) s =
      .next { s with dec := { s.dec with lastScl := 1#1, lastSda := 0#1 }, out := { events := [], diag := none } } ∧
    exec (.nochg11 phase) s =
      .next { s with dec := { s.dec with lastScl := 1#1, lastSda := 1#1 }, out := { events := [], diag := none } }

/-- R68: a sample whose levels equal the last ones selects a NOCHG row in any phase, emits nothing and leaves the decoder
unchanged. -/
def Obligations.RepeatedLevelsChangeNothing : Prop :=
  ∀ (s : State) (ts : Timestamp) (rest : List (InPorts Timestamp)),
    s.Presents ts s.dec.lastScl s.dec.lastSda rest →
    (∃ i, decode (dispatchWord s.dec s.dec.lastScl s.dec.lastSda) = .ok i ∧
      i.opcode ∈ [Opcode.nochg00, .nochg01, .nochg10, .nochg11]) ∧
    step s = .next
      { s with
        input := rest
        port := InPorts.sample ts s.dec.lastScl s.dec.lastSda
        out := { events := [], diag := none } }

/-- R80: a repeated sample inserted before any transaction changes nothing of what that transaction and the later ones
give. -/
def Obligations.InsertedRepeatIsInvisible : Prop :=
  ∀ (s : State) (ts : Timestamp) (p : InPorts Timestamp) (rest : List (InPorts Timestamp)),
    (∃ t, step { s with input := InPorts.sample ts s.dec.lastScl s.dec.lastSda :: p :: rest } = .next t ∧
      t.dec = s.dec ∧ t.out.events = []) ∧
    stepN 2 { s with input := InPorts.sample ts s.dec.lastScl s.dec.lastSda :: p :: rest } =
      stepN 1 { s with input := p :: rest }

/-- R69: CLKFALL emits nothing and writes only the levels, with any SDA and in any phase; every sample in which SCL falls
is one. -/
def Obligations.ClkfallResult : Prop :=
  (∀ (phase : BitVec 3) (lastSda sda : Level) (s : State),
    exec (.clkfall phase lastSda sda) s =
      .next { s with dec := { s.dec with lastScl := 0#1, lastSda := sda }, out := { events := [], diag := none } }) ∧
  (∀ (s : State) (ts : Timestamp) (sda : Level) (rest : List (InPorts Timestamp)),
    s.dec.lastScl = 1#1 → s.Presents ts 0#1 sda rest →
    step s = exec (.clkfall s.dec.phase.code s.dec.lastSda sda) (s.present (InPorts.sample ts 0#1 sda) rest))

/-- R70, R71: SDA changing while SCL stays low emits nothing and writes only the levels, in any phase. -/
def Obligations.SetupResult : Prop :=
  (∀ (phase : BitVec 3) (s : State),
    exec (.setupR phase) s =
      .next { s with dec := { s.dec with lastScl := 0#1, lastSda := 1#1 }, out := { events := [], diag := none } } ∧
    exec (.setupF phase) s =
      .next { s with dec := { s.dec with lastScl := 0#1, lastSda := 0#1 }, out := { events := [], diag := none } }) ∧
  (∀ (s : State) (ts : Timestamp) (rest : List (InPorts Timestamp)), s.dec.lastScl = 0#1 → s.dec.lastSda = 0#1 →
    s.Presents ts 0#1 1#1 rest →
    step s = exec (.setupR s.dec.phase.code) (s.present (InPorts.sample ts 0#1 1#1) rest)) ∧
  (∀ (s : State) (ts : Timestamp) (rest : List (InPorts Timestamp)), s.dec.lastScl = 0#1 → s.dec.lastSda = 1#1 →
    s.Presents ts 0#1 0#1 rest →
    step s = exec (.setupF s.dec.phase.code) (s.present (InPorts.sample ts 0#1 0#1) rest))

/-- R72: START emits START in Idle and START(odd) in every other phase, resets the bit state and goes to ReadAddress;
SDA falling with SCL high is one in every phase; no step after it is a START. -/
def Obligations.StartResult : Prop :=
  (∀ (phase : BitVec 3) (s : State),
    exec (.start phase) s =
      .next { s with
        dec := { phase := .readAddress, lastScl := 1#1, lastSda := 0#1, bitPosition := 0#3, byteAccumulator := 0#8 }
        out :=
          { events := [.text s.port.tsIn (if s.dec.phase = .idle then .start else .startOdd)]
            diag := none }
        textSink := s.textSink ++ [(s.port.tsIn, if s.dec.phase = .idle then .start else .startOdd)] }) ∧
  (∀ (s : State) (ts : Timestamp) (rest : List (InPorts Timestamp)), s.dec.lastScl = 1#1 → s.dec.lastSda = 1#1 →
    s.Presents ts 1#1 0#1 rest →
    step s = exec (.start s.dec.phase.code) (s.present (InPorts.sample ts 1#1 0#1) rest)) ∧
  (∀ (phase : BitVec 3) (s t : State) (scl sda : Level) (i : Instr), exec (.start phase) s = .next t →
    decode (dispatchWord t.dec scl sda) = .ok i → i.opcode ≠ .start)

/-- R73: STOP emits STOP and goes to Idle from every phase, and keeps the bit state; SDA rising with SCL high is one in
every phase. -/
def Obligations.StopResult : Prop :=
  (∀ (phase : BitVec 3) (s : State),
    exec (.stop phase) s =
      .next { s with
        dec := { s.dec with phase := .idle, lastScl := 1#1, lastSda := 1#1 }
        out := { events := [.text s.port.tsIn .stop], diag := none }
        textSink := s.textSink ++ [(s.port.tsIn, .stop)] }) ∧
  (∀ (s : State) (ts : Timestamp) (rest : List (InPorts Timestamp)), s.dec.lastScl = 1#1 → s.dec.lastSda = 0#1 →
    s.Presents ts 1#1 1#1 rest →
    step s = exec (.stop s.dec.phase.code) (s.present (InPorts.sample ts 1#1 1#1) rest))

/-! ## The phase actions -/

/-- R87: IDLEBIT emits no event and one diagnostic, writes only the levels, and a rising edge in Idle is one; only a
START leaves Idle. -/
def Obligations.IdlebitResult : Prop :=
  (∀ (lastSda sda : Level) (s : State),
    exec (.idlebit lastSda sda) s =
      .next { s with
        dec := { s.dec with lastScl := 1#1, lastSda := sda }
        out :=
          { events := []
            diag := some ⟨s.dec.phase, s.dec.lastScl, s.dec.lastSda, 1#1, sda⟩ }
        diagSink := s.diagSink ++ [⟨s.dec.phase, s.dec.lastScl, s.dec.lastSda, 1#1, sda⟩] }) ∧
  (∀ (s : State) (ts : Timestamp) (sda : Level) (rest : List (InPorts Timestamp)),
    s.dec.phase = .idle → s.dec.lastScl = 0#1 → s.Presents ts 1#1 sda rest →
    ∃ t, step s = .next t ∧ t.out.diag = some ⟨.idle, 0#1, s.dec.lastSda, 1#1, sda⟩) ∧
  (∀ s t : State, s.dec.phase = .idle → step s = .next t → t.dec.phase ≠ .idle →
    s.dec.lastScl = 1#1 ∧ s.dec.lastSda = 1#1 ∧ ∃ ts rest, s.Presents ts 1#1 0#1 rest)

/-- R82: ADDRBIT inserts the sampled bit at `6 - bitPosition` and counts it; the seventh bit completes the field, with
the value after the insertion, and resets the bit state. -/
def Obligations.AddrbitResult : Prop :=
  ∀ (lastSda b : Level) (s : State),
    (s.dec.bitPosition.toNat < 6 →
      exec (.addrbit lastSda b) s =
        .next { s with
          dec :=
            { phase := .readAddress
              lastScl := 1#1
              lastSda := b
              bitPosition := s.dec.bitPosition + 1#3
              byteAccumulator := insertBit s.dec.byteAccumulator (6 - s.dec.bitPosition.toNat) b }
          out := { events := [], diag := none } }) ∧
    (s.dec.bitPosition.toNat = 6 →
      exec (.addrbit lastSda b) s =
        .next { s with
          dec := { phase := .readDirection, lastScl := 1#1, lastSda := b, bitPosition := 0#3, byteAccumulator := 0#8 }
          out :=
            { events :=
                [.text s.port.tsIn .address, .byte s.port.tsIn (insertBit s.dec.byteAccumulator 0 b)]
              diag := none }
          byteSink := s.byteSink ++ [(s.port.tsIn, insertBit s.dec.byteAccumulator 0 b)]
          textSink := s.textSink ++ [(s.port.tsIn, .address)] })

/-- ADDRBIT from `bitPosition = 7`, a state no session reaches, is refused by name: the choice 41_phase_fsm.md §2 and
93_implementation_defined.md leave to the model (notes/assumptions/7.md). -/
def Obligations.AddressOverrunIsRefused : Prop :=
  ∀ (lastSda b : Level) (s : State), s.dec.bitPosition = 7#3 →
    exec (.addrbit lastSda b) s = .refused .addressOverrun

/-- R84: DIRBIT emits WRITE or READ, goes to ReadAck and keeps the bit state. -/
def Obligations.DirbitResult : Prop :=
  ∀ (lastSda b : Level) (s : State),
    exec (.dirbit lastSda b) s =
      .next { s with
        dec := { s.dec with phase := .readAck, lastScl := 1#1, lastSda := b }
        out := { events := [.text s.port.tsIn (if b = 0#1 then .write else .read)], diag := none }
        textSink := s.textSink ++ [(s.port.tsIn, if b = 0#1 then .write else .read)] }

/-- R85: ACKBIT emits ACK or NACK, goes to ReadData either way and resets the bit state. -/
def Obligations.AckbitResult : Prop :=
  ∀ (lastSda b : Level) (s : State),
    exec (.ackbit lastSda b) s =
      .next { s with
        dec := { phase := .readData, lastScl := 1#1, lastSda := b, bitPosition := 0#3, byteAccumulator := 0#8 }
        out := { events := [.text s.port.tsIn (if b = 0#1 then .ack else .nack)], diag := none }
        textSink := s.textSink ++ [(s.port.tsIn, if b = 0#1 then .ack else .nack)] }

/-- R86: DATABIT inserts the sampled bit at `7 - bitPosition` and counts it; the eighth bit completes the byte, with the
value after the insertion, and resets the bit state. -/
def Obligations.DatabitResult : Prop :=
  ∀ (lastSda b : Level) (s : State),
    (s.dec.bitPosition.toNat < 7 →
      exec (.databit lastSda b) s =
        .next { s with
          dec :=
            { phase := .readData
              lastScl := 1#1
              lastSda := b
              bitPosition := s.dec.bitPosition + 1#3
              byteAccumulator := insertBit s.dec.byteAccumulator (7 - s.dec.bitPosition.toNat) b }
          out := { events := [], diag := none } }) ∧
    (s.dec.bitPosition.toNat = 7 →
      exec (.databit lastSda b) s =
        .next { s with
          dec := { phase := .readAck, lastScl := 1#1, lastSda := b, bitPosition := 0#3, byteAccumulator := 0#8 }
          out :=
            { events := [.byte s.port.tsIn (insertBit s.dec.byteAccumulator 0 b), .text s.port.tsIn .data]
              diag := none }
          byteSink := s.byteSink ++ [(s.port.tsIn, insertBit s.dec.byteAccumulator 0 b)]
          textSink := s.textSink ++ [(s.port.tsIn, .data)] })

/-- R89: the insertion replaces bit `k` and leaves every other bit; under the invariant the bit it writes was 0, so it is
the OR of R89. -/
def Obligations.InsertionReplacesOneBit : Prop :=
  (∀ (acc : Byte) (k : Nat) (b : Level), k < 8 →
    (insertBit acc k b).getLsbD k = b.getLsbD 0 ∧
    ∀ j, j ≠ k → (insertBit acc k b).getLsbD j = acc.getLsbD j) ∧
  (∀ (d : Decoder) (b : Level), d.Inv → d.phase = .readAddress →
    d.byteAccumulator.getLsbD (6 - d.bitPosition.toNat) = false ∧
    insertAddressBit d b = d.byteAccumulator ||| (b.zeroExtend 8 <<< (6 - d.bitPosition.toNat))) ∧
  (∀ (d : Decoder) (b : Level), d.Inv → d.phase = .readData →
    d.byteAccumulator.getLsbD (7 - d.bitPosition.toNat) = false ∧
    insertDataBit d b = d.byteAccumulator ||| (b.zeroExtend 8 <<< (7 - d.bitPosition.toNat)))

/-- R83: seven address bits, most significant first, from a reset bit state, give one ADDRESS byte whose bits 6:0 are
those bits and whose bit 7 is 0; the next phase is ReadDirection. -/
def Obligations.AddressByteIsTheSevenBits : Prop :=
  ∀ (s : State) (l6 l5 l4 l3 l2 l1 l0 b6 b5 b4 b3 b2 b1 b0 : Level),
    s.dec.bitPosition = 0#3 → s.dec.byteAccumulator = 0#8 →
    execAll [.addrbit l6 b6, .addrbit l5 b5, .addrbit l4 b4, .addrbit l3 b3, .addrbit l2 b2, .addrbit l1 b1,
        .addrbit l0 b0] s =
      .next { s with
        dec := { phase := .readDirection, lastScl := 1#1, lastSda := b0, bitPosition := 0#3, byteAccumulator := 0#8 }
        out :=
          { events :=
              [.text s.port.tsIn .address,
               .byte s.port.tsIn (0#1 ++ b6 ++ b5 ++ b4 ++ b3 ++ b2 ++ b1 ++ b0)]
            diag := none }
        byteSink := s.byteSink ++ [(s.port.tsIn, 0#1 ++ b6 ++ b5 ++ b4 ++ b3 ++ b2 ++ b1 ++ b0)]
        textSink := s.textSink ++ [(s.port.tsIn, .address)] }

/-- Eight data bits, most significant first, from a reset bit state, give one byte event with that value; the next phase
is ReadAck (20_memory.md §2, 41_phase_fsm.md §2). -/
def Obligations.DataByteIsTheEightBits : Prop :=
  ∀ (s : State) (l7 l6 l5 l4 l3 l2 l1 l0 b7 b6 b5 b4 b3 b2 b1 b0 : Level),
    s.dec.bitPosition = 0#3 → s.dec.byteAccumulator = 0#8 →
    execAll [.databit l7 b7, .databit l6 b6, .databit l5 b5, .databit l4 b4, .databit l3 b3, .databit l2 b2,
        .databit l1 b1, .databit l0 b0] s =
      .next { s with
        dec := { phase := .readAck, lastScl := 1#1, lastSda := b0, bitPosition := 0#3, byteAccumulator := 0#8 }
        out :=
          { events :=
              [.byte s.port.tsIn (b7 ++ b6 ++ b5 ++ b4 ++ b3 ++ b2 ++ b1 ++ b0),
               .text s.port.tsIn .data]
            diag := none }
        byteSink := s.byteSink ++ [(s.port.tsIn, b7 ++ b6 ++ b5 ++ b4 ++ b3 ++ b2 ++ b1 ++ b0)]
        textSink := s.textSink ++ [(s.port.tsIn, .data)] }

/-- R93, R94: WRITE and READ, and likewise ACK and NACK, are reported and lead to the same decoder but for the remembered
SDA level. After an acknowledge bit, NACK included, the next bit sample is the first data bit; every rising edge in ReadData
is a data bit. -/
def Obligations.DirectionAndAckAreOnlyReported : Prop :=
  (∀ (lastSda : Level) (s : State),
    ∃ t u, exec (.dirbit lastSda 0#1) s = .next t ∧ exec (.dirbit lastSda 1#1) s = .next u ∧
      t.out.events = [.text s.port.tsIn .write] ∧ u.out.events = [.text s.port.tsIn .read] ∧
      t.dec.phase = .readAck ∧ { t.dec with lastSda := u.dec.lastSda } = u.dec) ∧
  (∀ (lastSda : Level) (s : State),
    ∃ t u, exec (.ackbit lastSda 0#1) s = .next t ∧ exec (.ackbit lastSda 1#1) s = .next u ∧
      t.out.events = [.text s.port.tsIn .ack] ∧ u.out.events = [.text s.port.tsIn .nack] ∧
      t.dec.phase = .readData ∧ { t.dec with lastSda := u.dec.lastSda } = u.dec ∧
      ∀ l b : Level, ∃ v, exec (.databit l b) u = .next v ∧ v.out.events = [] ∧
        v.dec.phase = .readData ∧ v.dec.bitPosition = 1#3) ∧
  (∀ (s : State) (ts : Timestamp) (b : Level) (rest : List (InPorts Timestamp)),
    s.dec.phase = .readData → s.dec.lastScl = 0#1 → s.Presents ts 1#1 b rest →
    step s = exec (.databit s.dec.lastSda b) (s.present (InPorts.sample ts 1#1 b) rest))

/-! ## Frames -/

/-- The operations that write neither phase nor bit state, and those that do not write the bit state, leave them
unchanged (10_state.md §1, column "written by"). -/
def Obligations.FieldsAnOperationDoesNotWrite : Prop :=
  ∀ (i : Instr) (s t : State), exec i s = .next t →
    (i.opcode ∈ [Opcode.nochg00, .nochg01, .nochg10, .nochg11, .clkfall, .setupR, .setupF, .idlebit] →
      t.dec.phase = s.dec.phase ∧ t.dec.bitPosition = s.dec.bitPosition ∧
      t.dec.byteAccumulator = s.dec.byteAccumulator) ∧
    (i.opcode ∈ [Opcode.stop, .dirbit] →
      t.dec.bitPosition = s.dec.bitPosition ∧ t.dec.byteAccumulator = s.dec.byteAccumulator)

/-- No operation changes the stream or the input ports, and each sink keeps what it has accepted, in order, with at most
one more entry (20_memory.md §3, §4). -/
def Obligations.OperationsOnlyAppendToTheSinks : Prop :=
  ∀ (i : Instr) (s t : State), exec i s = .next t →
    t.input = s.input ∧ t.port = s.port ∧
    t.byteSink = s.byteSink ++ t.out.bytePort.toList ∧
    t.textSink = s.textSink ++ t.out.textEvent.toList ∧
    t.diagSink = s.diagSink ++ t.out.diag.toList

/-- A step on any sample leaves the sample's levels as the last levels, and an operation leaves those of its own word:
the unconditional level update (40_classifier.md §1). -/
def Obligations.LevelsUpdatedOnEveryStep : Prop :=
  (∀ (i : Instr) (s t : State), exec i s = .next t →
    t.dec.lastScl = wordBit (encode i) 1 ∧ t.dec.lastSda = wordBit (encode i) 0) ∧
  (∀ (s t : State) (ts : Timestamp) (scl sda : Level) (rest : List (InPorts Timestamp)),
    s.Presents ts scl sda rest → step s = .next t → t.dec.lastScl = scl ∧ t.dec.lastSda = sda)

/-! ## Outputs -/

/-- R77: how many events and diagnostics each operation emits. -/
def Obligations.OutputsOfEachOperation : Prop :=
  ∀ (i : Instr) (s t : State), exec i s = .next t →
    match i.opcode with
    | .nochg00 | .nochg01 | .nochg10 | .nochg11 | .clkfall | .setupR | .setupF =>
      t.out.events = [] ∧ t.out.diag = none
    | .start | .stop | .dirbit | .ackbit => (∃ g, t.out.events = [.text s.port.tsIn g]) ∧ t.out.diag = none
    | .idlebit => t.out.events = [] ∧ ∃ r, t.out.diag = some r
    | .addrbit =>
      (if s.dec.bitPosition.toNat = 6 then ∃ a, t.out.events = [.text s.port.tsIn .address, .byte s.port.tsIn a]
        else t.out.events = []) ∧ t.out.diag = none
    | .databit =>
      (if s.dec.bitPosition.toNat = 7 then ∃ v, t.out.events = [.byte s.port.tsIn v, .text s.port.tsIn .data]
        else t.out.events = []) ∧ t.out.diag = none

/-- R51: the event sequence of a step on a sample is one of the permitted ones, a diagnostic accompanies only the empty
one, and the two-event sequences come from a completing ADDRBIT and a completing DATABIT. -/
def Obligations.EventSequenceIsPermitted : Prop :=
  ∀ (s t : State) (ts : Timestamp) (scl sda : Level) (rest : List (InPorts Timestamp)),
    s.Presents ts scl sda rest → step s = .next t →
    t.out.Permitted ts ∧
    (∀ a, t.out.events = [.text ts .address, .byte ts a] →
      s.dec.phase = .readAddress ∧ s.dec.bitPosition = 6#3 ∧ s.dec.lastScl = 0#1 ∧ scl = 1#1) ∧
    (∀ v, t.out.events = [.byte ts v, .text ts .data] →
      s.dec.phase = .readData ∧ s.dec.bitPosition = 7#3 ∧ s.dec.lastScl = 0#1 ∧ scl = 1#1)

/-- R88: a diagnostic comes only from a rising edge in Idle, holds the levels before and after and packs to the step's
dispatch word, reaches the diagnostic sink only, and leaves phase and bit state alone. -/
def Obligations.DiagnosticOnlyFromIdlebit : Prop :=
  ∀ (s t : State) (ts : Timestamp) (scl sda : Level) (rest : List (InPorts Timestamp)) (r : Diag),
    s.Presents ts scl sda rest → step s = .next t → t.out.diag = some r →
    s.dec.phase = .idle ∧ s.dec.lastScl = 0#1 ∧ scl = 1#1 ∧
    r = ⟨s.dec.phase, s.dec.lastScl, s.dec.lastSda, scl, sda⟩ ∧
    r.packed = dispatchWord s.dec scl sda ∧
    t.diagSink = s.diagSink ++ [r] ∧ t.textSink = s.textSink ∧ t.byteSink = s.byteSink ∧
    t.dec.phase = s.dec.phase ∧ t.dec.bitPosition = s.dec.bitPosition ∧
    t.dec.byteAccumulator = s.dec.byteAccumulator

/-- R99: the two anomalies a step reports, by its dispatch word, and no other: START(odd) and the diagnostic. -/
def Obligations.AnomaliesByDispatchWord : Prop :=
  ∀ (s t : State) (ts : Timestamp) (scl sda : Level) (rest : List (InPorts Timestamp)),
    s.Presents ts scl sda rest → step s = .next t →
    let w := dispatchWord s.dec scl sda
    (Event.text ts .startOdd ∈ t.out.events ↔
      wordTransition w = 0xE#4 ∧ (wordPhase w).toNat ∈ [1, 2, 3, 4]) ∧
    (t.out.diagPort.isSome = true ↔ w &&& 0x7A#7 = 0x02#7) ∧
    (∀ v, t.out.diagPort = some v → v = w)

/-- R62: a text sink handed a reserved tag code faults, and no step emits one. -/
def Obligations.ReservedTagCodesFaultAndAreNeverEmitted : Prop :=
  (∀ (sink : List (Timestamp × Tag)) (ts : Timestamp) (c : BitVec 4), 9 ≤ c.toNat →
    receiveText sink (some (ts, c)) = .error (.reservedTagCode c)) ∧
  (∀ (s t : State) (ts : Timestamp) (c : BitVec 4), step s = .next t → t.out.textPort = some (ts, c) → c.toNat < 9)

/-! ## The machine as a whole -/

/-- R81's phase column: the phase after a step on a sample is the one the transition table gives (41_phase_fsm.md §1). -/
def Obligations.PhaseFollowsTheTransitionTable : Prop :=
  ∀ (s t : State) (ts : Timestamp) (scl sda : Level) (rest : List (InPorts Timestamp)),
    s.Presents ts scl sda rest → step s = .next t → t.dec.phase = nextPhase s.dec scl sda

/-- From ReadAck or ReadData, a step that leaves both is a START, a STOP or `create`: the data cycle never ends by itself
(41_phase_fsm.md §3, 10_state.md §4). -/
def Obligations.DataCycleEndsOnlyByStartStopOrCreate : Prop :=
  ∀ s t : State, s.dec.phase ∈ [Phase.readAck, .readData] → step s = .next t →
    t.dec.phase ∉ [Phase.readAck, .readData] →
    ∃ p rest, s.input = p :: rest ∧
      (p.request = .create ∨
       (p.request = .sample ∧ s.dec.lastScl = 1#1 ∧ p.sclIn = 1#1 ∧ s.dec.lastSda ≠ p.sdaIn))

/-- The invariant of R19 holds at reset (10_state.md §3). -/
def Obligations.SessionStateAtReset : Prop := State.reset.Inv

/-- Every step keeps the invariant of R19, from every state that has it (10_state.md §3). -/
def Obligations.EveryStepKeepsSessionState : Prop :=
  ∀ s t : State, s.Inv → step s = .next t → t.Inv

/-- In a state of the invariant, a step on an admitted transaction always answers a next state (60_exceptions.md §1). -/
def Obligations.AdmittedStepReturns : Prop :=
  ∀ s : State, s.Inv → s.Admitted → ∃ t, step s = .next t ∧ t.Inv ∧ t.Admitted

/-- A session over an admitted stream never aborts, whatever its samples and however long it is (41_phase_fsm.md §3). -/
def Obligations.SessionNeverAborts : Prop :=
  ∀ (n : Nat) (s : State), s.Inv → s.Admitted →
    ∃ t, stepN n s = .next t ∧ t.Inv

/-- No step faults, from any state (60_exceptions.md §1). -/
def Obligations.NoStepFaults : Prop :=
  ∀ (s : State) (r : Fault), step s ≠ .fault r

/-- R79: the timestamp is only copied. Renaming every timestamp before a step gives the renamed outcome of the step, for
every renaming, one that forgets the timestamps included. -/
def Obligations.TimestampsAreOnlyCopied : Prop :=
  (∀ (f : Timestamp → Timestamp) (s : State), step (s.mapTs f) = mapNext (State.At.mapTs f) (step s)) ∧
  (∀ (s t : State) (ts : Timestamp) (scl sda : Level) (rest : List (InPorts Timestamp)),
    s.Presents ts scl sda rest → step s = .next t → ∀ e ∈ t.out.events, e.ts = ts)

/-- The bit state left in Idle is never observable: two machines that differ in nothing else give the same outputs over
any number of steps (10_state.md §3, §4). -/
def Obligations.IdleRemnantIsNeverObservable : Prop :=
  ∀ (n : Nat) (s t : State), s.SameButIdleRemnant t →
    Agree State.At.SameButIdleRemnant (stepN n s) (stepN n t)

/-! ## Stimuli -/

/-- R119: the first sample after `create` is classified against levels 1 and 1; rising edges in Idle give diagnostics. -/
def Obligations.FirstSampleAfterCreate : Prop :=
  decode (dispatchWord Decoder.create 1#1 1#1) = .ok (.nochg11 0b000#3) ∧
  decode (dispatchWord Decoder.create 1#1 0#1) = .ok (.start 0b000#3) ∧
  decode (dispatchWord Decoder.create 0#1 1#1) = .ok (.clkfall 0b000#3 1#1 1#1) ∧
  decode (dispatchWord Decoder.create 0#1 0#1) = .ok (.clkfall 0b000#3 1#1 0#1) ∧
  (∀ (ts : Timestamp) (rest : List (InPorts Timestamp)) (s : State), s.dec = Decoder.create → s.Presents ts 1#1 0#1 rest →
    ∃ t, step s = .next t ∧ t.out.events = [.text ts .start]) ∧
  (∀ (s : State) (ts : Timestamp) (sda : Level) (rest : List (InPorts Timestamp)),
    s.dec.phase = .idle → s.dec.lastScl = 0#1 → s.Presents ts 1#1 sda rest → ∃ t, step s = .next t ∧ t.out.diag.isSome = true)

/-- A one-sample low pulse on SDA while both lines are high is decoded as a START and then a STOP, whatever follows
(70_reset_and_hazards.md §3). -/
def Obligations.LowPulseIsStartThenStop : Prop :=
  ∀ (s : State) (ts ts' : Timestamp) (rest : List (InPorts Timestamp)), s.dec.lastScl = 1#1 → s.dec.lastSda = 1#1 →
    s.input = InPorts.sample ts 1#1 0#1 :: InPorts.sample ts' 1#1 1#1 :: rest →
    ∃ t, stepN 2 s = .next t ∧
      t.textSink = s.textSink ++ [(ts, startTag s.dec.phase), (ts', .stop)] ∧
      t.byteSink = s.byteSink ∧ t.dec = Decoder.create ∧ t.input = rest

/-- R126: while SCL is held low, a step is a NOCHG or a SETUP; it emits nothing and changes nothing but the last SDA
level, so the same holds of the next one. -/
def Obligations.ClockStretchingIsSilent : Prop :=
  ∀ (s : State) (ts : Timestamp) (sda : Level) (rest : List (InPorts Timestamp)),
    s.dec.lastScl = 0#1 → s.Presents ts 0#1 sda rest →
    (∃ i, decode (dispatchWord s.dec 0#1 sda) = .ok i ∧
      i.opcode ∈ [Opcode.nochg00, .nochg01, .setupR, .setupF]) ∧
    step s = .next
      { s with
        dec := { s.dec with lastSda := sda }
        input := rest
        port := InPorts.sample ts 0#1 sda
        out := { events := [], diag := none } }

/-- Each bus pseudo-instruction that expands ends on the levels its row names (30_encoding.md §7). -/
def Obligations.PseudoInstructionEndLevels : Prop :=
  ∀ (p : Pseudo) (l : Levels) (xs : List Levels), p.expand l = some xs → xs.getLast? = some (p.endLevels l)

/-! ## Tag codes on the text port, `create`, and the type of timestamps -/

/-- R47: the tag code on the text port by the operation that emits it, the string of each code, and no tag for a reserved
code. -/
def Obligations.TextTagCodeByEmitter : Prop :=
  (∀ (i : Instr) (s t : State), exec i s = .next t →
    t.out.textPort =
      match i with
      | .start _ => some (s.port.tsIn, if s.dec.phase = .idle then 0x0#4 else 0x1#4)
      | .stop _ => some (s.port.tsIn, 0x2#4)
      | .addrbit _ _ => if s.dec.bitPosition.toNat = 6 then some (s.port.tsIn, 0x3#4) else none
      | .dirbit _ b => some (s.port.tsIn, if b = 0#1 then 0x4#4 else 0x5#4)
      | .ackbit _ b => some (s.port.tsIn, if b = 0#1 then 0x6#4 else 0x7#4)
      | .databit _ _ => if s.dec.bitPosition.toNat = 7 then some (s.port.tsIn, 0x8#4) else none
      | .nochg00 _ | .nochg01 _ | .nochg10 _ | .nochg11 _ | .clkfall _ _ _ | .setupR _ | .setupF _ | .idlebit _ _ =>
        none) ∧
  ([0x0#4, 0x1#4, 0x2#4, 0x3#4, 0x4#4, 0x5#4, 0x6#4, 0x7#4, 0x8#4].map fun c => (Tag.ofCode? c).map Tag.name) =
    [some "START", some "START(odd)", some "STOP", some "ADDRESS", some "WRITE", some "READ", some "ACK", some "NACK",
     some "DATA"] ∧
  (∀ c : BitVec 4, 9 ≤ c.toNat → Tag.ofCode? c = none)

/-- R116, R118: a `create` at any step boundary, in mid-field included, writes every field of the decoder and emits no event
and no diagnostic; the next sample is classified against levels 1 and 1. -/
def Obligations.CreateWritesTheFiveFields : Prop :=
  ∀ (s : State) (ts : Timestamp) (scl sda : Level) (rest : List (InPorts Timestamp)),
    s.input = InPorts.creating ts scl sda :: rest →
    ∃ t, step s = .next t ∧
      t.dec = { phase := .idle, lastScl := 1#1, lastSda := 1#1, bitPosition := 0#3, byteAccumulator := 0#8 } ∧
      t.out.events = [] ∧ t.out.diag = none ∧
      ∀ scl' sda' : Level, transitionCode t.dec scl' sda' = 1#1 ++ 1#1 ++ scl' ++ sda'

/-- The type of timestamps is free (00_scope.md §3): at every type, the machine that the step procedure gives does to the
renamed state what `step` does to the state, whatever the renaming. At the host's type and with no renaming it is `step`. -/
def Obligations.TimestampTypeIsFree : Prop :=
  ∀ (τ : Type) (f : Timestamp → τ) (s : State), procedureStep (s.mapTs f) = mapNext (State.At.mapTs f) (step s)

/-- Running the machine at the natural numbers loses nothing (notes/assumptions/1.md): every state at every type of
timestamps is a renaming of one at the host's type (00_scope.md §3). -/
def Obligations.EveryTimestampTypeIsCovered : Prop :=
  ∀ (τ : Type) (x : State.At τ), ∃ (f : Timestamp → τ) (s : State), s.mapTs f = x
end

