-- ==== Sys2Proof/Laws/Decode.lean ====
section
/-!
SUPPORT. What the parts of a packed dispatch word are, and that phase and tag codes are read back.
-/

namespace Sys2Proof

@[simp] theorem wordPhase_packWord (p : BitVec 3) (a b c d : Level) : wordPhase (packWord p a b c d) = p := by
  revert p a b c d; decide

@[simp] theorem wordTransition_packWord (p : BitVec 3) (a b c d : Level) :
    wordTransition (packWord p a b c d) = packTransition a b c d := by
  revert p a b c d; decide

@[simp] theorem wordBit_packWord_three (p : BitVec 3) (a b c d : Level) : wordBit (packWord p a b c d) 3 = a := by
  revert p a b c d; decide

@[simp] theorem wordBit_packWord_two (p : BitVec 3) (a b c d : Level) : wordBit (packWord p a b c d) 2 = b := by
  revert p a b c d; decide

@[simp] theorem wordBit_packWord_one (p : BitVec 3) (a b c d : Level) : wordBit (packWord p a b c d) 1 = c := by
  revert p a b c d; decide

@[simp] theorem wordBit_packWord_zero (p : BitVec 3) (a b c d : Level) : wordBit (packWord p a b c d) 0 = d := by
  revert p a b c d; decide

/-- A word is the packing of its own parts. -/
theorem packWord_parts (w : DispatchWord) :
    packWord (wordPhase w) (wordBit w 3) (wordBit w 2) (wordBit w 1) (wordBit w 0) = w := by
  revert w; decide

namespace Machine

@[simp] theorem Phase.ofCode?_code (p : Phase) : Phase.ofCode? p.code = some p := by cases p <;> decide

@[simp] theorem Tag.ofCode?_code (g : Tag) : Tag.ofCode? g.code = some g := by cases g <;> decide

theorem Phase.legal_code (p : Phase) : legalPhaseCode p.code = true := by cases p <;> decide

end Machine

end Sys2Proof
end

