-- ==== Sys2Proof/Laws/State.lean ====
section
/-!
SUPPORT. One lemma per field per update of the decoder and of the machine, so that no proof unfolds a record update.
-/

namespace Sys2Proof.Machine

section decoder

variable (d : Decoder) (scl sda : Level) (p : Phase) (bp : BitVec 3) (acc : Byte)

@[simp] theorem Decoder.setLevels_phase : (d.setLevels scl sda).phase = d.phase := rfl
@[simp] theorem Decoder.setLevels_lastScl : (d.setLevels scl sda).lastScl = scl := rfl
@[simp] theorem Decoder.setLevels_lastSda : (d.setLevels scl sda).lastSda = sda := rfl
@[simp] theorem Decoder.setLevels_bitPosition : (d.setLevels scl sda).bitPosition = d.bitPosition := rfl
@[simp] theorem Decoder.setLevels_byteAccumulator :
    (d.setLevels scl sda).byteAccumulator = d.byteAccumulator := rfl

@[simp] theorem Decoder.setPhase_phase : (d.setPhase p).phase = p := rfl
@[simp] theorem Decoder.setPhase_lastScl : (d.setPhase p).lastScl = d.lastScl := rfl
@[simp] theorem Decoder.setPhase_lastSda : (d.setPhase p).lastSda = d.lastSda := rfl
@[simp] theorem Decoder.setPhase_bitPosition : (d.setPhase p).bitPosition = d.bitPosition := rfl
@[simp] theorem Decoder.setPhase_byteAccumulator : (d.setPhase p).byteAccumulator = d.byteAccumulator := rfl

@[simp] theorem Decoder.setBits_phase : (d.setBits bp acc).phase = d.phase := rfl
@[simp] theorem Decoder.setBits_lastScl : (d.setBits bp acc).lastScl = d.lastScl := rfl
@[simp] theorem Decoder.setBits_lastSda : (d.setBits bp acc).lastSda = d.lastSda := rfl
@[simp] theorem Decoder.setBits_bitPosition : (d.setBits bp acc).bitPosition = bp := rfl
@[simp] theorem Decoder.setBits_byteAccumulator : (d.setBits bp acc).byteAccumulator = acc := rfl

@[simp] theorem Decoder.resetBits_phase : d.resetBits.phase = d.phase := rfl
@[simp] theorem Decoder.resetBits_lastScl : d.resetBits.lastScl = d.lastScl := rfl
@[simp] theorem Decoder.resetBits_lastSda : d.resetBits.lastSda = d.lastSda := rfl
@[simp] theorem Decoder.resetBits_bitPosition : d.resetBits.bitPosition = 0#3 := rfl
@[simp] theorem Decoder.resetBits_byteAccumulator : d.resetBits.byteAccumulator = 0#8 := rfl

end decoder

section machine

variable {τ : Type} (s : State.At τ) (o : Output τ) (p : InPorts τ) (rest : List (InPorts τ))

@[simp] theorem State.At.record_dec : (s.record o).dec = s.dec := rfl
@[simp] theorem State.At.record_input : (s.record o).input = s.input := rfl
@[simp] theorem State.At.record_port : (s.record o).port = s.port := rfl
@[simp] theorem State.At.record_out : (s.record o).out = o := rfl
@[simp] theorem State.At.record_byteSink : (s.record o).byteSink = s.byteSink ++ o.bytePort.toList := rfl
@[simp] theorem State.At.record_textSink : (s.record o).textSink = s.textSink ++ o.textEvent.toList := rfl
@[simp] theorem State.At.record_diagSink : (s.record o).diagSink = s.diagSink ++ o.diag.toList := rfl

@[simp] theorem State.At.present_dec : (s.present p rest).dec = s.dec := rfl
@[simp] theorem State.At.present_input : (s.present p rest).input = rest := rfl
@[simp] theorem State.At.present_port : (s.present p rest).port = p := rfl
@[simp] theorem State.At.present_out : (s.present p rest).out = s.out := rfl
@[simp] theorem State.At.present_byteSink : (s.present p rest).byteSink = s.byteSink := rfl
@[simp] theorem State.At.present_textSink : (s.present p rest).textSink = s.textSink := rfl
@[simp] theorem State.At.present_diagSink : (s.present p rest).diagSink = s.diagSink := rfl

@[simp] theorem createSession_dec : (createSession s).dec = Decoder.create := rfl
@[simp] theorem createSession_input : (createSession s).input = s.input := rfl
@[simp] theorem createSession_port : (createSession s).port = s.port := rfl
@[simp] theorem createSession_out : (createSession s).out = .silent := rfl
@[simp] theorem createSession_byteSink : (createSession s).byteSink = s.byteSink := rfl
@[simp] theorem createSession_textSink : (createSession s).textSink = s.textSink := rfl
@[simp] theorem createSession_diagSink : (createSession s).diagSink = s.diagSink := rfl

@[simp] theorem noTransaction_dec : (noTransaction s).dec = s.dec := rfl
@[simp] theorem noTransaction_input : (noTransaction s).input = s.input := rfl
@[simp] theorem noTransaction_port : (noTransaction s).port = s.port := rfl
@[simp] theorem noTransaction_out : (noTransaction s).out = .silent := rfl
@[simp] theorem noTransaction_byteSink : (noTransaction s).byteSink = s.byteSink := rfl
@[simp] theorem noTransaction_textSink : (noTransaction s).textSink = s.textSink := rfl
@[simp] theorem noTransaction_diagSink : (noTransaction s).diagSink = s.diagSink := rfl

end machine

end Sys2Proof.Machine
end

