-- ==== Sys2Proof/Laws/Ops.lean ====
section
/-!
SUPPORT. What the shared operations can do, said once: the sinks accept every output of a step, so an operation that
ends in `finish` always answers a next state, and which one.
-/

namespace Sys2Proof.Machine

variable {τ : Type}

/-- The text sink accepts what the text port carries: a tag's own code is never reserved. -/
theorem receiveText_textPort (sink : List (τ × Tag)) (o : Output τ) :
    receiveText sink o.textPort = .ok (sink ++ o.textEvent.toList) := by
  unfold Output.textPort
  cases o.textEvent <;> simp [receiveText]

/-- Delivery never stops, and records the outputs. -/
theorem deliver_eq (o : Output τ) (s : State.At τ) : deliver o s = .next (s.record o) := by
  simp [deliver, receiveText_textPort, State.At.record]

/-- The end of an operation, as one next state. -/
theorem finish_eq (d : Decoder) (scl sda : Level) (o : Output τ) (s : State.At τ) :
    finish d scl sda o s = .next (State.At.record { s with dec := d.setLevels scl sda } o) := by
  rw [finish, deliver_eq]

/-- Silent outputs leave the sinks as they are. -/
theorem record_silent (s : State.At τ) : s.record .silent = { s with out := .silent } := by
  simp [State.At.record, Output.silent, Output.bytePort, Output.textEvent]

/-- One text event reaches the text sink only. -/
theorem record_ofText (s : State.At τ) (ts : τ) (g : Tag) :
    s.record (.ofText ts g) = { s with out := .ofText ts g, textSink := s.textSink ++ [(ts, g)] } := by
  simp [State.At.record, Output.ofText, Output.bytePort, Output.textEvent, Event.asByte?, Event.asText?]

/-- The events of a completed address reach one sink each. -/
theorem record_ofAddress (s : State.At τ) (ts : τ) (a : Byte) :
    s.record (.ofAddress ts a) =
      { s with
        out := .ofAddress ts a
        byteSink := s.byteSink ++ [(ts, a)]
        textSink := s.textSink ++ [(ts, .address)] } := by
  simp [State.At.record, Output.ofAddress, Output.bytePort, Output.textEvent]
  exact ⟨rfl, rfl⟩

/-- The events of a completed data byte reach one sink each. -/
theorem record_ofData (s : State.At τ) (ts : τ) (v : Byte) :
    s.record (.ofData ts v) =
      { s with
        out := .ofData ts v
        byteSink := s.byteSink ++ [(ts, v)]
        textSink := s.textSink ++ [(ts, .data)] } := by
  simp [State.At.record, Output.ofData, Output.bytePort, Output.textEvent]
  exact ⟨rfl, rfl⟩

/-- A diagnostic reaches the diagnostic sink only. -/
theorem record_ofDiag (s : State.At τ) (r : Diag) :
    s.record (.ofDiag r) = { s with out := .ofDiag r, diagSink := s.diagSink ++ [r] } := by
  simp [State.At.record, Output.ofDiag, Output.bytePort, Output.textEvent]

end Sys2Proof.Machine
end

