-- ==== Sys2Proof/Laws/Step.lean ====
section
/-!
SUPPORT. What a step can do, said once: the outcome by the transaction that the host presents.
-/

namespace Sys2Proof.Machine

/-- With nothing to present, a step holds the state. -/
theorem step_nil {s : State} (h : s.input = []) : step s = .next (noTransaction s) := by
  simp [step, h]

/-- With a transaction to present, a step performs it. -/
theorem step_cons {s : State} {p : InPorts Timestamp} {rest : List (InPorts Timestamp)} (h : s.input = p :: rest) :
    step s = transact (s.present p rest) := by
  simp [step, h]

/-- A sample to present runs the operation it selects. -/
theorem step_sample {s : State} {ts : Timestamp} {scl sda : Level} {rest : List (InPorts Timestamp)}
    (h : s.input = InPorts.sample ts scl sda :: rest) :
    step s = runSample (s.present (InPorts.sample ts scl sda) rest) := by
  rw [step_cons h]; rfl

/-- A port bundle that asks for a sample is a sample. -/
theorem InPorts.eq_sample {p : InPorts Timestamp} (h : p.request = .sample) :
    p = InPorts.sample p.tsIn p.sclIn p.sdaIn := by
  obtain ⟨v, c, _, _, _⟩ := p
  cases v <;> cases c <;> simp_all [InPorts.request, InPorts.sample]

/-- Everything a step that goes on can have done. -/
theorem step_cases {s t : State} (h : step s = .next t) :
    (s.input = [] ∧ t = noTransaction s) ∨
    ∃ p rest, s.input = p :: rest ∧
      ((p.request = .nothing ∧ t = noTransaction (s.present p rest)) ∨
       (p.request = .create ∧ t = createSession (s.present p rest)) ∨
       (p.request = .sample ∧ runSample (s.present p rest) = .next t)) := by
  cases hi : s.input with
  | nil =>
    rw [step_nil hi] at h
    cases h
    exact .inl ⟨rfl, rfl⟩
  | cons p rest =>
    refine .inr ⟨p, rest, rfl, ?_⟩
    rw [step_cons hi] at h
    cases hr : p.request <;> simp_all [transact]

end Sys2Proof.Machine
end

