-- ==== Sys2Proof/Laws/Exec.lean ====
section
/-!
SUPPORT. What an operation can do, said once over all operations: if it goes on, which decoder and which outputs it
gives; and when it does not go on. Callers cite these and do not unfold the meanings.
-/

namespace Sys2Proof.Machine

/-- The phase, the bit state and the outputs that the operation `i` gives in `s` when it goes on; `b` is the sampled bit. -/
def ExecEffect (i : Instr) (s : State) (d : Decoder) (o : Output Timestamp) : Prop :=
  let b := d.lastSda
  let keepsBits := d.bitPosition = s.dec.bitPosition ∧ d.byteAccumulator = s.dec.byteAccumulator
  let clearsBits := d.bitPosition = 0#3 ∧ d.byteAccumulator = 0#8
  match i with
  | .nochg00 _ | .nochg01 _ | .nochg10 _ | .nochg11 _ | .clkfall _ _ _ | .setupR _ | .setupF _ =>
    o = .silent ∧ d.phase = s.dec.phase ∧ keepsBits
  | .start _ => o = .ofText s.port.tsIn (startTag s.dec.phase) ∧ d.phase = .readAddress ∧ clearsBits
  | .stop _ => o = .ofText s.port.tsIn .stop ∧ d.phase = .idle ∧ keepsBits
  | .idlebit _ _ =>
    o = .ofDiag ⟨s.dec.phase, s.dec.lastScl, s.dec.lastSda, 1#1, b⟩ ∧ d.phase = s.dec.phase ∧ keepsBits
  | .addrbit _ _ =>
    s.dec.bitPosition ≠ 7#3 ∧
    ((s.dec.bitPosition = 6#3 ∧ o = .ofAddress s.port.tsIn (insertAddressBit s.dec b) ∧
        d.phase = .readDirection ∧ clearsBits) ∨
     (s.dec.bitPosition ≠ 6#3 ∧ o = .silent ∧ d.phase = .readAddress ∧
        d.bitPosition = s.dec.bitPosition + 1#3 ∧ d.byteAccumulator = insertAddressBit s.dec b))
  | .dirbit _ _ => o = .ofText s.port.tsIn (directionTag b) ∧ d.phase = .readAck ∧ keepsBits
  | .ackbit _ _ => o = .ofText s.port.tsIn (ackTag b) ∧ d.phase = .readData ∧ clearsBits
  | .databit _ _ =>
    (s.dec.bitPosition = 7#3 ∧ o = .ofData s.port.tsIn (insertDataBit s.dec b) ∧
        d.phase = .readAck ∧ clearsBits) ∨
    (s.dec.bitPosition ≠ 7#3 ∧ o = .silent ∧ d.phase = .readData ∧
        d.bitPosition = s.dec.bitPosition + 1#3 ∧ d.byteAccumulator = insertDataBit s.dec b)

/-- The count reaches 7 exactly from `bitPosition = 6`. -/
theorem bitCount_eq_seven : ∀ bp : BitVec 3, bitCount bp = 7#4 ↔ bp = 6#3 := by decide

/-- The count reaches 8 exactly from `bitPosition = 7`. -/
theorem bitCount_eq_eight : ∀ bp : BitVec 3, bitCount bp = 8#4 ↔ bp = 7#3 := by decide

/-- The low three bits of the count. -/
theorem bitCount_truncate : ∀ bp : BitVec 3, (bitCount bp).truncate 3 = bp + 1#3 := by decide

/-- Everything an operation that goes on can have done: the new decoder and the outputs of its effect, recorded, with
the levels of its own word. -/
theorem exec_cases {i : Instr} {s t : State} (h : exec i s = .next t) :
    ∃ d o, t = State.At.record { s with dec := d } o ∧
      d.lastScl = wordBit (encode i) 1 ∧ d.lastSda = wordBit (encode i) 0 ∧ ExecEffect i s d o := by
  cases i <;>
    simp only [exec, execNochg00, execNochg01, execNochg10, execNochg11, execClkfall, execSetupR, execSetupF,
      execStart, execStop, execIdlebit, execAddrbit, execDirbit, execAckbit, execDatabit, silentStep, finish_eq,
      bitCount_eq_seven, bitCount_eq_eight, bitCount_truncate] at h
  case addrbit =>
    split at h
    · cases h
    · split at h <;> cases h <;> refine ⟨_, _, rfl, ?_⟩ <;> simp [*, encode, ExecEffect]
  case databit =>
    split at h <;> cases h <;> refine ⟨_, _, rfl, ?_⟩ <;> simp [*, encode, ExecEffect]
  all_goals
    cases h
    refine ⟨_, _, rfl, ?_⟩
    simp [encode, ExecEffect]

/-- An operation goes on, but for ADDRBIT from `bitPosition = 7`. -/
theorem exec_next_or_overrun (i : Instr) (s : State) :
    (∃ t, exec i s = .next t) ∨
    ((∃ ld b, i = .addrbit ld b) ∧ s.dec.bitPosition = 7#3 ∧ exec i s = .refused .addressOverrun) := by
  cases i <;>
    simp only [exec, execNochg00, execNochg01, execNochg10, execNochg11, execClkfall, execSetupR, execSetupF,
      execStart, execStop, execIdlebit, execAddrbit, execDirbit, execAckbit, execDatabit, silentStep, finish_eq]
  case addrbit =>
    split
    · simp [*]
    · split <;> exact .inl ⟨_, rfl⟩
  case databit => split <;> exact .inl ⟨_, rfl⟩
  all_goals exact .inl ⟨_, rfl⟩

end Sys2Proof.Machine
end

