-- ==== Sys2Proof/Laws/MapTs.lean ====
section
/-!
SUPPORT. One lemma per field of a machine whose timestamps are renamed, and what of a port bundle a renaming keeps.
-/

namespace Sys2Proof.Machine

variable {σ τ : Type} (f : σ → τ) (s : State.At σ) (p : InPorts σ)

@[simp] theorem State.At.mapTs_dec : (s.mapTs f).dec = s.dec := rfl
@[simp] theorem State.At.mapTs_input : (s.mapTs f).input = s.input.map (InPorts.mapTs f) := rfl
@[simp] theorem State.At.mapTs_port : (s.mapTs f).port = s.port.mapTs f := rfl
@[simp] theorem State.At.mapTs_out : (s.mapTs f).out = s.out.mapTs f := rfl
@[simp] theorem State.At.mapTs_byteSink : (s.mapTs f).byteSink = s.byteSink.map fun e => (f e.1, e.2) := rfl
@[simp] theorem State.At.mapTs_textSink : (s.mapTs f).textSink = s.textSink.map fun e => (f e.1, e.2) := rfl
@[simp] theorem State.At.mapTs_diagSink : (s.mapTs f).diagSink = s.diagSink := rfl

@[simp] theorem InPorts.mapTs_request : (p.mapTs f).request = p.request := rfl
@[simp] theorem InPorts.mapTs_sclIn : (p.mapTs f).sclIn = p.sclIn := rfl
@[simp] theorem InPorts.mapTs_sdaIn : (p.mapTs f).sdaIn = p.sdaIn := rfl
@[simp] theorem InPorts.mapTs_tsIn : (p.mapTs f).tsIn = f p.tsIn := rfl

/-- The renamed byte event of a renamed transaction's outputs is that of the outputs, renamed. -/
@[simp] theorem Output.mapTs_bytePort (o : Output σ) :
    (o.mapTs f).bytePort = o.bytePort.map fun e => (f e.1, e.2) := by
  obtain ⟨es, d⟩ := o
  simp only [Output.bytePort, Output.mapTs]
  induction es with
  | nil => rfl
  | cons e es ih => cases e <;> simp [Event.mapTs, Event.asByte?, List.findSome?_cons, ih]

/-- The renamed text event of a renamed transaction's outputs is that of the outputs, renamed. -/
@[simp] theorem Output.mapTs_textEvent (o : Output σ) :
    (o.mapTs f).textEvent = o.textEvent.map fun e => (f e.1, e.2) := by
  obtain ⟨es, d⟩ := o
  simp only [Output.textEvent, Output.mapTs]
  induction es with
  | nil => rfl
  | cons e es ih => cases e <;> simp [Event.mapTs, Event.asText?, List.findSome?_cons, ih]

end Sys2Proof.Machine
end

