-- ==== Sys2Proof/Laws/PerInstr.lean ====
section
/-!
SUPPORT. One fact per operation of the opcode table: its word has its row's fixed bits and no other row's (R54), which
R54's mask, match and pattern columns must agree on.
-/

namespace Sys2Proof.Laws.TableRow

/-- The word of an operation is matched by the operation's own row of the opcode table and by no other row. -/
def Statement (i : Instr) : Prop :=
  ∀ o ∈ Opcode.all, o.selects (encode i) = true ↔ o = i.opcode

theorem nochg00 (phase : BitVec 3) : Statement (.nochg00 phase) := by
  unfold Statement; revert phase; decide

theorem nochg01 (phase : BitVec 3) : Statement (.nochg01 phase) := by
  unfold Statement; revert phase; decide

theorem nochg10 (phase : BitVec 3) : Statement (.nochg10 phase) := by
  unfold Statement; revert phase; decide

theorem nochg11 (phase : BitVec 3) : Statement (.nochg11 phase) := by
  unfold Statement; revert phase; decide

theorem clkfall (phase : BitVec 3) (lastSda sda : Level) : Statement (.clkfall phase lastSda sda) := by
  unfold Statement; revert phase lastSda sda; decide

theorem setupR (phase : BitVec 3) : Statement (.setupR phase) := by
  unfold Statement; revert phase; decide

theorem setupF (phase : BitVec 3) : Statement (.setupF phase) := by
  unfold Statement; revert phase; decide

theorem start (phase : BitVec 3) : Statement (.start phase) := by
  unfold Statement; revert phase; decide

theorem stop (phase : BitVec 3) : Statement (.stop phase) := by
  unfold Statement; revert phase; decide

theorem idlebit (lastSda sda : Level) : Statement (.idlebit lastSda sda) := by
  unfold Statement; revert lastSda sda; decide

theorem addrbit (lastSda sda : Level) : Statement (.addrbit lastSda sda) := by
  unfold Statement; revert lastSda sda; decide

theorem dirbit (lastSda sda : Level) : Statement (.dirbit lastSda sda) := by
  unfold Statement; revert lastSda sda; decide

theorem ackbit (lastSda sda : Level) : Statement (.ackbit lastSda sda) := by
  unfold Statement; revert lastSda sda; decide

theorem databit (lastSda sda : Level) : Statement (.databit lastSda sda) := by
  unfold Statement; revert lastSda sda; decide

end Sys2Proof.Laws.TableRow
end

