-- ==== Sys2Proof/Tests/Slice0.lean ====
section
/-!
SUPPORT. Tests: ill-formed operands refused, words of the opcode table decoded, one step per operation against the
vectors of 95_test_vectors.md, the expansions of R65, and a witness for the hypotheses of each statement. Expected
results come from the spec's tables; the section of 95_test_vectors.md is named at each.
-/

namespace Sys2Proof.Tests

open Sys2Proof.Machine

/-- A machine with the given decoder fields and stream, nothing on the ports and nothing in the sinks. -/
def mk (p : Phase) (scl sda : Level) (bp : BitVec 3) (acc : Byte) (input : List (InPorts Timestamp)) : State :=
  { State.reset with
    dec := { phase := p, lastScl := scl, lastSda := sda, bitPosition := bp, byteAccumulator := acc }
    input := input }

/-- A sample written as in R64. -/
def smp (ts : Timestamp) (scl sda : Level) : InPorts Timestamp := InPorts.sample ts scl sda

/-- The decoder after an outcome, if it is a next state. -/
def decOf : Host.Outcome State Fault Refusal → Option Decoder
  | .next s => some s.dec
  | .fault _ => none
  | .refused _ => none

/-- The outputs of an outcome, if it is a next state. -/
def outOf : Host.Outcome State Fault Refusal → Option (Output Timestamp)
  | .next s => some s.out
  | .fault _ => none
  | .refused _ => none

/-! ## WellFormed: an ill-formed term for each check (R61) -/

theorem test_illformed_nochg00 : (Instr.nochg00 0b101#3).wellFormed = false := by decide
theorem test_illformed_nochg01 : (Instr.nochg01 0b110#3).wellFormed = false := by decide
theorem test_illformed_nochg10 : (Instr.nochg10 0b111#3).wellFormed = false := by decide
theorem test_illformed_nochg11 : (Instr.nochg11 0b101#3).wellFormed = false := by decide
theorem test_illformed_clkfall : (Instr.clkfall 0b101#3 0#1 1#1).wellFormed = false := by decide
theorem test_illformed_setupR : (Instr.setupR 0b110#3).wellFormed = false := by decide
theorem test_illformed_setupF : (Instr.setupF 0b111#3).wellFormed = false := by decide
theorem test_illformed_start : (Instr.start 0b101#3).wellFormed = false := by decide
theorem test_illformed_stop : (Instr.stop 0b111#3).wellFormed = false := by decide
theorem test_wellformed_last_phase : (Instr.start 0b100#3).wellFormed = true := by decide

/-! ## Decoding: words written out from R54's patterns; the hexadecimal words are those of L2-1 and L3 -/

theorem test_decode_nochg00 : decode 0b0110000#7 = .ok (.nochg00 0b011#3) := by decide
theorem test_decode_nochg01 : decode 0b0010101#7 = .ok (.nochg01 0b001#3) := by decide
theorem test_decode_nochg10 : decode 0x4A#7 = .ok (.nochg10 0b100#3) := by decide
theorem test_decode_nochg11 : decode 0x0F#7 = .ok (.nochg11 0b000#3) := by decide
theorem test_decode_clkfall : decode 0x1D#7 = .ok (.clkfall 0b001#3 1#1 1#1) := by decide
theorem test_decode_setupR : decode 0x41#7 = .ok (.setupR 0b100#3) := by decide
theorem test_decode_setupF : decode 0x24#7 = .ok (.setupF 0b010#3) := by decide
theorem test_decode_start : decode 0x4E#7 = .ok (.start 0b100#3) := by decide
theorem test_decode_stop : decode 0x1B#7 = .ok (.stop 0b001#3) := by decide
theorem test_decode_idlebit : decode 0x02#7 = .ok (.idlebit 0#1 0#1) := by decide
theorem test_decode_addrbit : decode 0x17#7 = .ok (.addrbit 1#1 1#1) := by decide
theorem test_decode_dirbit : decode 0x27#7 = .ok (.dirbit 1#1 1#1) := by decide
theorem test_decode_ackbit : decode 0x32#7 = .ok (.ackbit 0#1 0#1) := by decide
theorem test_decode_databit : decode 0x47#7 = .ok (.databit 1#1 1#1) := by decide
theorem test_decode_reserved_bitsample : decode 0b1010010#7 = .error (.noRow 0b1010010#7) := by decide
theorem test_decodeTableWord_reads : decodeTableWord 8 0x22 = some (.dirbit 0#1 0#1) := by decide
theorem test_decodeTableWord_refuses : decodeTableWord 8 0x80 = none := by decide

/-! ## One step per operation -/

/-- L1-1 -/
theorem test_nochg00 : decOf (step (mk .readData 0#1 0#1 3#3 0x60#8 [smp 0 0#1 0#1])) =
    some ⟨.readData, 0#1, 0#1, 3#3, 0x60#8⟩ := by decide
/-- L1-1 -/
theorem test_nochg01 : decOf (step (mk .readData 0#1 1#1 3#3 0x60#8 [smp 0 0#1 1#1])) =
    some ⟨.readData, 0#1, 1#1, 3#3, 0x60#8⟩ := by decide
/-- L1-1 -/
theorem test_nochg10 : decOf (step (mk .readData 1#1 0#1 3#3 0x60#8 [smp 0 1#1 0#1])) =
    some ⟨.readData, 1#1, 0#1, 3#3, 0x60#8⟩ := by decide
/-- L1-1 -/
theorem test_nochg11 : outOf (step (mk .readData 1#1 1#1 3#3 0x60#8 [smp 0 1#1 1#1])) = some ⟨[], none⟩ := by decide
/-- L3-1, t = 30 -/
theorem test_clkfall : decOf (step (mk .readData 1#1 1#1 1#3 0x80#8 [smp 30 0#1 1#1])) =
    some ⟨.readData, 0#1, 1#1, 1#3, 0x80#8⟩ := by decide
/-- L3-1, t = 38 -/
theorem test_setupR : decOf (step (mk .readData 0#1 0#1 4#3 0xC0#8 [smp 38 0#1 1#1])) =
    some ⟨.readData, 0#1, 1#1, 4#3, 0xC0#8⟩ := by decide
/-- L3-1, t = 43 -/
theorem test_setupF : decOf (step (mk .readData 0#1 1#1 6#3 0xCC#8 [smp 43 0#1 0#1])) =
    some ⟨.readData, 0#1, 0#1, 6#3, 0xCC#8⟩ := by decide
/-- L2-5 -/
theorem test_start_idle : outOf (step (mk .idle 1#1 1#1 4#3 0x90#8 [smp 3 1#1 0#1])) =
    some ⟨[.text 3 .start], none⟩ := by decide
/-- L2-5 -/
theorem test_start_odd : outOf (step (mk .readAck 1#1 1#1 4#3 0x90#8 [smp 3 1#1 0#1])) =
    some ⟨[.text 3 .startOdd], none⟩ := by decide
/-- L2-5 -/
theorem test_stop_keeps_bits : decOf (step (mk .readData 1#1 0#1 4#3 0x90#8 [smp 3 1#1 1#1])) =
    some ⟨.idle, 1#1, 1#1, 4#3, 0x90#8⟩ := by decide
/-- L2-6 -/
theorem test_idlebit_diag : outOf (step (mk .idle 0#1 1#1 2#3 0x40#8 [smp 0 1#1 0#1])) =
    some ⟨[], some ⟨.idle, 0#1, 1#1, 1#1, 0#1⟩⟩ := by decide
/-- L2-6: diag_rec -/
theorem test_idlebit_packed : (⟨.idle, 0#1, 1#1, 1#1, 0#1⟩ : Diag).packed = 0x06#7 := by decide
/-- L2-2 -/
theorem test_addrbit_first : decOf (step (mk .readAddress 0#1 0#1 0#3 0x00#8 [smp 5 1#1 1#1])) =
    some ⟨.readAddress, 1#1, 1#1, 1#3, 0x40#8⟩ := by decide
/-- L2-2 -/
theorem test_addrbit_completes : outOf (step (mk .readAddress 0#1 0#1 6#3 0x54#8 [smp 5 1#1 1#1])) =
    some ⟨[.text 5 .address, .byte 5 0x55#8], none⟩ := by decide
/-- L2-3 -/
theorem test_dirbit_merged_change : outOf (step (mk .readDirection 0#1 0#1 0#3 0x00#8 [smp 7 1#1 1#1])) =
    some ⟨[.text 7 .read], none⟩ := by decide
/-- L2-3 -/
theorem test_ackbit_nack : outOf (step (mk .readAck 0#1 1#1 0#3 0x00#8 [smp 7 1#1 1#1])) =
    some ⟨[.text 7 .nack], none⟩ := by decide
/-- L2-4 -/
theorem test_databit_seventh : decOf (step (mk .readData 0#1 0#1 6#3 0xA4#8 [smp 9 1#1 0#1])) =
    some ⟨.readData, 1#1, 0#1, 7#3, 0xA4#8⟩ := by decide
/-- L2-4 -/
theorem test_databit_completes : outOf (step (mk .readData 0#1 1#1 7#3 0xFE#8 [smp 9 1#1 1#1])) =
    some ⟨[.byte 9 0xFF#8, .text 9 .data], none⟩ := by decide
/-- L2-7 -/
theorem test_create : decOf (step (mk .readData 0#1 0#1 5#3 0xA8#8 [InPorts.creating 0 0#1 0#1])) =
    some ⟨.idle, 1#1, 1#1, 0#3, 0#8⟩ := by decide
/-- R62: a reserved code at the text sink is a fault. -/
theorem test_reserved_tag : receiveText [] (some (0, 0x9#4)) = .error (.reservedTagCode 0x9#4) := by rfl
/-- The first word of an opcode-table row, placed and run as the first operation after reset (L2-1, W = 0x32). -/
theorem test_withFetchWord : outOf (step (State.reset.withFetchWord 8 0x32)) = some ⟨[.text 0 .ack], none⟩ := by decide

/-! ## The stimulus language (R65): L3-1's stream for the address byte, and the STOP after a clock -/

/-- L1-4's stream, but for the START sample. -/
theorem test_expand_addr : (Pseudo.addr 0x55#7).expand ⟨1#1, 0#1⟩ = some
    [⟨0#1, 0#1⟩, ⟨0#1, 1#1⟩, ⟨1#1, 1#1⟩, ⟨0#1, 1#1⟩, ⟨0#1, 0#1⟩, ⟨1#1, 0#1⟩, ⟨0#1, 0#1⟩, ⟨0#1, 1#1⟩, ⟨1#1, 1#1⟩,
     ⟨0#1, 1#1⟩, ⟨0#1, 0#1⟩, ⟨1#1, 0#1⟩, ⟨0#1, 0#1⟩, ⟨0#1, 1#1⟩, ⟨1#1, 1#1⟩, ⟨0#1, 1#1⟩, ⟨0#1, 0#1⟩, ⟨1#1, 0#1⟩,
     ⟨0#1, 0#1⟩, ⟨0#1, 1#1⟩, ⟨1#1, 1#1⟩] := by decide
/-- L3-2, t = 94 to 97. -/
theorem test_expand_stop : Pseudo.stopBus.expand ⟨1#1, 1#1⟩ =
    some [⟨0#1, 1#1⟩, ⟨0#1, 0#1⟩, ⟨1#1, 0#1⟩, ⟨1#1, 1#1⟩] := by decide

/-! ## Witnesses: concrete inputs that meet the hypotheses of each statement together -/

theorem witness_EncodeOfDecodeIsTheWord : decode 0x47#7 = .ok (.databit 1#1 1#1) := by decide
theorem witness_ExactlyOneRowPerWord_legal : (wordPhase 0x40#7).toNat ≤ 4 := by decide
theorem witness_ExactlyOneRowPerWord_reserved_bit :
    5 ≤ (wordPhase 0x52#7).toNat ∧ classify (wordTransition 0x52#7) = .bitsample 0#1 := by decide
theorem witness_ExactlyOneRowPerWord_reserved_other :
    5 ≤ (wordPhase 0x7E#7).toNat ∧ classify (wordTransition 0x7E#7) = .start := by decide
theorem witness_ReservedPhaseHasNoMeaning :
    5 ≤ (wordPhase 0x50#7).toNat ∧ decode 0x50#7 = .ok (.nochg00 0b101#3) := by decide
theorem witness_OnlyBitsAreLevels : 2 ≤ 2 ∧ Level.ofNat? 2 = none := by decide

/-- A data bit presented in ReadData, the last of a byte. -/
def lastDataBit : State := mk .readData 0#1 1#1 7#3 0xFE#8 [smp 9 1#1 1#1]

theorem witness_StepExecutesDecodedOperation :
    lastDataBit.input = smp 9 1#1 1#1 :: [] ∧ (smp 9 1#1 1#1).request = .sample ∧
    decode (lastDataBit.present (smp 9 1#1 1#1) []).word = .ok (.databit 1#1 1#1) ∧
    (Instr.databit 1#1 1#1).wellFormed = true := by decide
theorem witness_TransactionByRequest_neither :
    (mk .readAck 0#1 0#1 0#3 0#8 [InPorts.quiet 0]).input = InPorts.quiet 0 :: [] ∧
    (InPorts.quiet 0 : InPorts Timestamp).sampleValid = false ∧ (InPorts.quiet 0 : InPorts Timestamp).create = false := by decide
theorem witness_TransactionByRequest_create :
    (InPorts.creating 3 0#1 0#1).sampleValid = false ∧ (InPorts.creating 3 0#1 0#1).create = true := by decide
theorem witness_TransactionByRequest_sample :
    (smp 3 0#1 0#1).sampleValid = true ∧ (smp 3 0#1 0#1).create = false := by decide
/-- Both asserted: refused by name. -/
theorem witness_TransactionByRequest_both :
    step (mk .idle 1#1 1#1 0#3 0#8 [⟨true, true, 1#1, 1#1, 0⟩]) = .refused .sampleAndCreate := by rfl
theorem witness_CreateWritesEveryField :
    (mk .readData 0#1 0#1 5#3 0xA8#8 [InPorts.creating 0 0#1 0#1]).input = InPorts.creating 0 0#1 0#1 :: [] := by rfl
theorem witness_OnlySampleOrCreate_idle : (mk .readData 0#1 0#1 5#3 0xA8#8 []).input = [] := by rfl
theorem witness_OnlySampleOrCreate_changes :
    ∃ t, step lastDataBit = .next t ∧ t.dec ≠ lastDataBit.dec := ⟨_, rfl, by decide⟩
theorem witness_RisingEdgeDispatchesOnPhase :
    lastDataBit.dec.lastScl = 0#1 ∧ lastDataBit.Presents 9 1#1 1#1 [] := by decide
theorem witness_StepIsTheStepProcedure :
    lastDataBit.Presents 9 1#1 1#1 [] ∧ lastDataBit.Inv ∧
    stepProcedure lastDataBit.dec 1#1 1#1 9 = some (⟨.readAck, 1#1, 1#1, 0#3, 0#8⟩, .ofData 9 0xFF#8) := by decide
theorem witness_RepeatedLevelsChangeNothing :
    (mk .readData 1#1 0#1 3#3 0x60#8 [smp 4 1#1 0#1]).Presents 4 1#1 0#1 [] := by decide
theorem witness_ClkfallResult :
    (mk .readAck 1#1 0#1 0#3 0#8 [smp 4 0#1 1#1]).dec.lastScl = 1#1 ∧
    (mk .readAck 1#1 0#1 0#3 0#8 [smp 4 0#1 1#1]).Presents 4 0#1 1#1 [] := by decide
theorem witness_SetupResult_rise :
    (mk .readAck 0#1 0#1 0#3 0#8 [smp 4 0#1 1#1]).dec.lastScl = 0#1 ∧
    (mk .readAck 0#1 0#1 0#3 0#8 [smp 4 0#1 1#1]).dec.lastSda = 0#1 ∧
    (mk .readAck 0#1 0#1 0#3 0#8 [smp 4 0#1 1#1]).Presents 4 0#1 1#1 [] := by decide
theorem witness_SetupResult_fall :
    (mk .idle 0#1 1#1 0#3 0#8 [smp 4 0#1 0#1]).dec.lastScl = 0#1 ∧
    (mk .idle 0#1 1#1 0#3 0#8 [smp 4 0#1 0#1]).dec.lastSda = 1#1 ∧
    (mk .idle 0#1 1#1 0#3 0#8 [smp 4 0#1 0#1]).Presents 4 0#1 0#1 [] := by decide
theorem witness_StartResult_step :
    (mk .readData 1#1 1#1 3#3 0x60#8 [smp 4 1#1 0#1]).dec.lastScl = 1#1 ∧
    (mk .readData 1#1 1#1 3#3 0x60#8 [smp 4 1#1 0#1]).dec.lastSda = 1#1 ∧
    (mk .readData 1#1 1#1 3#3 0x60#8 [smp 4 1#1 0#1]).Presents 4 1#1 0#1 [] := by decide
theorem witness_StartResult_next :
    ∃ t, exec (.start 0#3) State.reset = .next t ∧ decode (dispatchWord t.dec 1#1 1#1) = .ok (.stop 0b001#3) :=
  ⟨_, rfl, by decide⟩
theorem witness_StopResult :
    (mk .readData 1#1 0#1 3#3 0x60#8 [smp 4 1#1 1#1]).dec.lastScl = 1#1 ∧
    (mk .readData 1#1 0#1 3#3 0x60#8 [smp 4 1#1 1#1]).dec.lastSda = 0#1 ∧
    (mk .readData 1#1 0#1 3#3 0x60#8 [smp 4 1#1 1#1]).Presents 4 1#1 1#1 [] := by decide

/-- A rising edge presented in Idle. -/
def edgeInIdle : State := mk .idle 0#1 1#1 2#3 0x40#8 [smp 6 1#1 0#1]

theorem witness_IdlebitResult_edge :
    edgeInIdle.dec.phase = .idle ∧ edgeInIdle.dec.lastScl = 0#1 ∧ edgeInIdle.Presents 6 1#1 0#1 [] := by decide
theorem witness_IdlebitResult_leaves :
    (mk .idle 1#1 1#1 0#3 0#8 [smp 0 1#1 0#1]).dec.phase = .idle ∧
    ∃ t, step (mk .idle 1#1 1#1 0#3 0#8 [smp 0 1#1 0#1]) = .next t ∧ t.dec.phase ≠ .idle :=
  ⟨rfl, _, rfl, by decide⟩
theorem witness_AddrbitResult_partial :
    (mk .readAddress 0#1 0#1 0#3 0#8 []).dec.bitPosition.toNat < 6 ∧
    (mk .readAddress 0#1 0#1 5#3 0x7C#8 []).dec.bitPosition.toNat < 6 := by decide
theorem witness_AddrbitResult_complete :
    (mk .readAddress 0#1 0#1 6#3 0x54#8 []).dec.bitPosition.toNat = 6 := by decide
theorem witness_AddressOverrunIsRefused :
    exec (.addrbit 0#1 1#1) (mk .readAddress 0#1 0#1 7#3 0#8 []) = .refused .addressOverrun := by rfl
theorem witness_DatabitResult_partial :
    (mk .readData 0#1 0#1 0#3 0#8 []).dec.bitPosition.toNat < 7 ∧
    (mk .readData 0#1 0#1 6#3 0xA4#8 []).dec.bitPosition.toNat < 7 := by decide
theorem witness_DatabitResult_complete : lastDataBit.dec.bitPosition.toNat = 7 := by decide
theorem witness_InsertionReplacesOneBit_index : 0 < 8 ∧ 7 < 8 ∧ 0 ≠ 7 := by decide
theorem witness_InsertionReplacesOneBit_address :
    (mk .readAddress 0#1 0#1 0#3 0#8 []).Inv ∧ (mk .readAddress 0#1 0#1 6#3 0x54#8 []).Inv ∧
    (mk .readAddress 0#1 0#1 6#3 0x54#8 []).dec.phase = .readAddress := by decide
theorem witness_InsertionReplacesOneBit_data :
    (mk .readData 0#1 0#1 0#3 0#8 []).Inv ∧ lastDataBit.Inv ∧ lastDataBit.dec.phase = .readData := by decide
theorem witness_AddressByteIsTheSevenBits :
    (mk .readAddress 0#1 0#1 0#3 0#8 []).dec.bitPosition = 0#3 ∧
    (mk .readAddress 0#1 0#1 0#3 0#8 []).dec.byteAccumulator = 0#8 := by decide
theorem witness_DataByteIsTheEightBits :
    (mk .readData 0#1 0#1 0#3 0#8 []).dec.bitPosition = 0#3 ∧
    (mk .readData 0#1 0#1 0#3 0#8 []).dec.byteAccumulator = 0#8 := by decide
theorem witness_FieldsAnOperationDoesNotWrite_levels :
    (∃ t, exec (.idlebit 1#1 0#1) edgeInIdle = .next t) ∧ (Instr.idlebit 1#1 0#1).opcode = .idlebit := ⟨⟨_, rfl⟩, rfl⟩
theorem witness_FieldsAnOperationDoesNotWrite_bits :
    (∃ t, exec (.stop 0#3) lastDataBit = .next t) ∧ (Instr.stop 0#3).opcode = .stop := ⟨⟨_, rfl⟩, rfl⟩
theorem witness_OperationsOnlyAppendToTheSinks :
    ∃ t, exec (.databit 1#1 1#1) lastDataBit = .next t := ⟨_, rfl⟩
theorem witness_LevelsUpdatedOnEveryStep :
    lastDataBit.Presents 9 1#1 1#1 [] ∧ ∃ t, step lastDataBit = .next t := ⟨rfl, _, rfl⟩
theorem witness_OutputsOfEachOperation_address :
    (∃ t, exec (.addrbit 0#1 1#1) (mk .readAddress 0#1 0#1 6#3 0x54#8 []) = .next t) ∧
    (∃ t, exec (.addrbit 0#1 1#1) (mk .readAddress 0#1 0#1 5#3 0x54#8 []) = .next t) := ⟨⟨_, rfl⟩, ⟨_, rfl⟩⟩
theorem witness_OutputsOfEachOperation_data :
    (∃ t, exec (.databit 0#1 1#1) (mk .readData 0#1 0#1 7#3 0x54#8 []) = .next t) ∧
    (∃ t, exec (.databit 0#1 1#1) (mk .readData 0#1 0#1 6#3 0x54#8 []) = .next t) := ⟨⟨_, rfl⟩, ⟨_, rfl⟩⟩
theorem witness_OutputsOfEachOperation_silent_text_diag :
    (∃ t, exec (.nochg00 0#3) lastDataBit = .next t) ∧ (∃ t, exec (.start 0#3) lastDataBit = .next t) ∧
    (∃ t, exec (.idlebit 1#1 0#1) edgeInIdle = .next t) := ⟨⟨_, rfl⟩, ⟨_, rfl⟩, ⟨_, rfl⟩⟩
theorem witness_EventSequenceIsPermitted_data :
    lastDataBit.Presents 9 1#1 1#1 [] ∧
    ∃ t, step lastDataBit = .next t ∧ t.out.events = [.byte 9 0xFF#8, .text 9 .data] := ⟨rfl, _, rfl, rfl⟩
theorem witness_EventSequenceIsPermitted_address :
    (mk .readAddress 0#1 0#1 6#3 0x54#8 [smp 5 1#1 1#1]).Presents 5 1#1 1#1 [] ∧
    ∃ t, step (mk .readAddress 0#1 0#1 6#3 0x54#8 [smp 5 1#1 1#1]) = .next t ∧
      t.out.events = [.text 5 .address, .byte 5 0x55#8] := ⟨rfl, _, rfl, rfl⟩
theorem witness_DiagnosticOnlyFromIdlebit :
    edgeInIdle.Presents 6 1#1 0#1 [] ∧
    ∃ t, step edgeInIdle = .next t ∧ t.out.diag = some ⟨.idle, 0#1, 1#1, 1#1, 0#1⟩ := ⟨rfl, _, rfl, rfl⟩
theorem witness_AnomaliesByDispatchWord_diag :
    edgeInIdle.Presents 6 1#1 0#1 [] ∧
    ∃ t, step edgeInIdle = .next t ∧ t.out.diagPort = some 0x06#7 := ⟨rfl, _, rfl, rfl⟩
theorem witness_AnomaliesByDispatchWord_odd :
    ∃ t, step (mk .readAck 1#1 1#1 4#3 0x90#8 [smp 3 1#1 0#1]) = .next t ∧ t.out.events = [.text 3 .startOdd] :=
  ⟨_, rfl, rfl⟩
theorem witness_ReservedTagCodes_sink : 9 ≤ (0x9#4).toNat ∧ 9 ≤ (0xF#4).toNat := by decide
theorem witness_ReservedTagCodes_step :
    ∃ t, step lastDataBit = .next t ∧ t.out.textPort = some (9, 0x8#4) := ⟨_, rfl, rfl⟩
theorem witness_PhaseFollowsTheTransitionTable :
    lastDataBit.Presents 9 1#1 1#1 [] ∧ ∃ t, step lastDataBit = .next t ∧ t.dec.phase = .readAck := ⟨rfl, _, rfl, rfl⟩
theorem witness_DataCycleEndsOnlyByStartStopOrCreate :
    (mk .readData 1#1 0#1 3#3 0x60#8 [smp 4 1#1 1#1]).dec.phase ∈ [Phase.readAck, .readData] ∧
    ∃ t, step (mk .readData 1#1 0#1 3#3 0x60#8 [smp 4 1#1 1#1]) = .next t ∧
      t.dec.phase ∉ [Phase.readAck, .readData] := ⟨by decide, _, rfl, by decide⟩
theorem witness_EveryStepKeepsSessionState_data :
    lastDataBit.Inv ∧ ∃ t, step lastDataBit = .next t := ⟨by decide, _, rfl⟩
theorem witness_EveryStepKeepsSessionState_address :
    (mk .readAddress 0#1 0#1 6#3 0x54#8 [smp 5 1#1 1#1]).Inv ∧
    ∃ t, step (mk .readAddress 0#1 0#1 6#3 0x54#8 [smp 5 1#1 1#1]) = .next t := ⟨by decide, _, rfl⟩
theorem witness_AdmittedStepReturns : lastDataBit.Inv ∧ lastDataBit.Admitted := by decide
theorem witness_SessionNeverAborts :
    (mk .idle 1#1 1#1 0#3 0#8 [smp 0 1#1 0#1, smp 1 0#1 0#1, InPorts.creating 2 1#1 1#1]).Inv ∧
    (mk .idle 1#1 1#1 0#3 0#8 [smp 0 1#1 0#1, smp 1 0#1 0#1, InPorts.creating 2 1#1 1#1]).Admitted := by decide
theorem witness_TimestampsAreOnlyCopied :
    lastDataBit.Presents 9 1#1 1#1 [] ∧
    ∃ t, step lastDataBit = .next t ∧ Event.byte 9 0xFF#8 ∈ t.out.events := ⟨rfl, _, rfl, by decide⟩
theorem witness_IdleRemnantIsNeverObservable :
    edgeInIdle.SameButIdleRemnant (mk .idle 0#1 1#1 5#3 0xA8#8 [smp 6 1#1 0#1]) ∧
    edgeInIdle ≠ mk .idle 0#1 1#1 5#3 0xA8#8 [smp 6 1#1 0#1] := by decide
theorem witness_FirstSampleAfterCreate :
    (mk .idle 1#1 1#1 0#3 0#8 [smp 0 1#1 0#1]).dec = Decoder.create ∧
    (mk .idle 1#1 1#1 0#3 0#8 [smp 0 1#1 0#1]).Presents 0 1#1 0#1 [] := by decide
theorem witness_FirstSampleAfterCreate_edge :
    edgeInIdle.dec.phase = .idle ∧ edgeInIdle.dec.lastScl = 0#1 ∧ edgeInIdle.Presents 6 1#1 0#1 [] := by decide
theorem witness_LowPulseIsStartThenStop :
    (mk .readAck 1#1 1#1 0#3 0#8 [smp 1 1#1 0#1, smp 2 1#1 1#1]).dec.lastScl = 1#1 ∧
    (mk .readAck 1#1 1#1 0#3 0#8 [smp 1 1#1 0#1, smp 2 1#1 1#1]).dec.lastSda = 1#1 ∧
    (mk .readAck 1#1 1#1 0#3 0#8 [smp 1 1#1 0#1, smp 2 1#1 1#1]).input =
      InPorts.sample 1 1#1 0#1 :: InPorts.sample 2 1#1 1#1 :: [] := by decide
theorem witness_ClockStretchingIsSilent :
    (mk .readData 0#1 1#1 3#3 0x60#8 [smp 4 0#1 0#1]).dec.lastScl = 0#1 ∧
    (mk .readData 0#1 1#1 3#3 0x60#8 [smp 4 0#1 0#1]).Presents 4 0#1 0#1 [] := by decide
theorem witness_PseudoInstructionEndLevels :
    (Pseudo.bit 1#1).expand ⟨1#1, 0#1⟩ = some [⟨0#1, 0#1⟩, ⟨0#1, 1#1⟩, ⟨1#1, 1#1⟩] := by decide
theorem witness_DirectionAndAckAreOnlyReported :
    lastDataBit.dec.phase = .readData ∧ lastDataBit.dec.lastScl = 0#1 ∧ lastDataBit.Presents 9 1#1 1#1 [] := by decide
theorem witness_TextTagCodeByEmitter_odd :
    ∃ t, exec (.start 3#3) (mk .readAck 1#1 1#1 0#3 0#8 []) = .next t ∧ t.out.textPort = some (0, 0x1#4) := ⟨_, rfl, rfl⟩
theorem witness_TextTagCodeByEmitter_nack :
    ∃ t, exec (.ackbit 0#1 1#1) (mk .readAck 0#1 0#1 0#3 0#8 []) = .next t ∧ t.out.textPort = some (0, 0x7#4) :=
  ⟨_, rfl, rfl⟩
theorem witness_TextTagCodeByEmitter_reserved : 9 ≤ (0x9#4).toNat ∧ 9 ≤ (0xF#4).toNat := by decide
theorem witness_CreateWritesTheFiveFields :
    (mk .readAddress 0#1 1#1 3#3 0x50#8 [InPorts.creating 4 0#1 1#1]).input = InPorts.creating 4 0#1 1#1 :: [] := by rfl
/-- Timestamps of another type: the strings. The machine at that type decodes the same byte. -/
theorem witness_TimestampTypeIsFree :
    ∃ t, procedureStep (lastDataBit.mapTs fun n => if n = 9 then "noon" else "dawn") = .next t ∧
      t.out.events = [.byte "noon" 0xFF#8, .text "noon" .data] := ⟨_, rfl, rfl⟩

end Sys2Proof.Tests
end

section
/-!
PROOFS, the rules. What the encoding family needs of the codes, the table, the output ports and the selection of an
operation, each said once.
-/

namespace Sys2Proof

/-- A row that selects a word reads an operation whose word it is: fixed bits and operands make up all of it. -/
theorem encode_build (o : Opcode) : ∀ w : DispatchWord, o.selects w = true → encode (o.build w) = w := by
  cases o <;> decide

/-- What a word decodes to has that word. -/
theorem encode_of_decode {w : DispatchWord} {i : Instr} (h : decode w = .ok i) : encode i = w := by
  unfold decode at h
  split at h
  next o ho =>
    cases h
    exact encode_build o w (List.find?_some (p := (Opcode.selects · w)) ho)
  next => cases h

/-- Two packed words are equal exactly when their parts are. -/
theorem packWord_inj {p p' : BitVec 3} {a b c d a' b' c' d' : Level} :
    packWord p a b c d = packWord p' a' b' c' d' ↔ p = p' ∧ a = a' ∧ b = b' ∧ c = c' ∧ d = d' := by
  constructor
  · intro h
    refine ⟨?_, ?_, ?_, ?_, ?_⟩
    · simpa using congrArg wordPhase h
    · simpa using congrArg (wordBit · 3) h
    · simpa using congrArg (wordBit · 2) h
    · simpa using congrArg (wordBit · 1) h
    · simpa using congrArg (wordBit · 0) h
  · rintro ⟨rfl, rfl, rfl, rfl, rfl⟩
    rfl

namespace Machine

/-- The legal phase codes are 0 to 4 (R13, R59). -/
theorem Phase.isSome_ofCode?_iff : ∀ c : BitVec 3, (Phase.ofCode? c).isSome = true ↔ c.toNat ≤ 4 := by decide

/-- A code is read back as exactly the phase it encodes. -/
theorem Phase.ofCode?_eq_some_iff (c : BitVec 3) (p : Phase) : Phase.ofCode? c = some p ↔ p.code = c := by
  constructor
  · revert c
    cases p <;> decide
  · rintro rfl
    exact Phase.ofCode?_code p

/-- The legal tag codes are 0 to 8 (R47, R59). -/
theorem Tag.isSome_ofCode?_iff : ∀ c : BitVec 4, (Tag.ofCode? c).isSome = true ↔ c.toNat ≤ 8 := by decide

/-- A code is read back as exactly the tag it encodes. -/
theorem Tag.ofCode?_eq_some_iff (c : BitVec 4) (g : Tag) : Tag.ofCode? c = some g ↔ g.code = c := by
  constructor
  · revert c
    cases g <;> decide
  · rintro rfl
    exact Tag.ofCode?_code g

/-- A reserved code has no tag (R62). -/
theorem Tag.ofCode?_eq_none {c : BitVec 4} (h : 9 ≤ c.toNat) : Tag.ofCode? c = none := by
  rw [← Option.not_isSome_iff_eq_none, Tag.isSome_ofCode?_iff]
  omega

/-- The code of a tag is not reserved. -/
theorem Tag.code_lt (g : Tag) : g.code.toNat < 9 := by cases g <;> decide

/-- The code of a START's tag (R72). -/
theorem startTag_code (p : Phase) : (startTag p).code = if p = .idle then 0x0#4 else 0x1#4 := by
  cases p <;> rfl

/-- The code of a direction bit's tag (R84). -/
theorem directionTag_code (b : Level) : (directionTag b).code = if b = 0#1 then 0x4#4 else 0x5#4 :=
  apply_ite Tag.code _ _ _

/-- The code of an acknowledge bit's tag (R85). -/
theorem ackTag_code (b : Level) : (ackTag b).code = if b = 0#1 then 0x6#4 else 0x7#4 :=
  apply_ite Tag.code _ _ _

section ports

variable {τ : Type} (ts : τ)

@[simp] theorem Output.textPort_silent : (Output.silent : Output τ).textPort = none := rfl
@[simp] theorem Output.textPort_ofText (g : Tag) : (Output.ofText ts g).textPort = some (ts, g.code) := rfl
@[simp] theorem Output.textPort_ofAddress (a : Byte) :
    (Output.ofAddress ts a).textPort = some (ts, Tag.address.code) := rfl
@[simp] theorem Output.textPort_ofData (v : Byte) : (Output.ofData ts v).textPort = some (ts, Tag.data.code) := rfl
@[simp] theorem Output.textPort_ofDiag (r : Diag) : (Output.ofDiag r : Output τ).textPort = none := rfl

/-- The text port carries the code of a tag, so never a reserved one (R62). -/
theorem Output.textPort_code_lt {ts : τ} {o : Output τ} {c : BitVec 4} (h : o.textPort = some (ts, c)) :
    c.toNat < 9 := by
  obtain ⟨e, -, he⟩ := Option.map_eq_some_iff.mp h
  obtain ⟨-, rfl⟩ := Prod.mk.inj he
  exact e.2.code_lt

end ports

/-- A sample that goes on executed the operation of its dispatch word. -/
theorem runSample_cases {s t : State} (h : runSample s = .next t) :
    ∃ i, encode i = s.word ∧ exec i s = .next t := by
  unfold runSample selectOp at h
  cases hd : decode s.word with
  | error e => simp [hd] at h
  | ok i =>
    by_cases hw : i.wellFormed = true <;> simp [hd, hw] at h
    exact ⟨i, encode_of_decode hd, h⟩

/-- A step on a presented sample that goes on executed the operation of the step's dispatch word. -/
theorem step_sample_cases {s t : State} {ts : Timestamp} {scl sda : Level} {rest : List (InPorts Timestamp)}
    (hp : s.Presents ts scl sda rest) (h : step s = .next t) :
    ∃ i, encode i = dispatchWord s.dec scl sda ∧
      exec i (s.present (InPorts.sample ts scl sda) rest) = .next t := by
  rw [step_sample hp] at h
  exact runSample_cases h

/-- A step whose word is that of a phase's BITSAMPLE row is a rising edge in that phase (R54, R56). -/
theorem risingEdge_of_dispatchWord {d : Decoder} {p : Phase} {ld b scl sda : Level}
    (h : packWord p.code 0#1 ld 1#1 b = dispatchWord d scl sda) :
    d.phase = p ∧ d.lastScl = 0#1 ∧ scl = 1#1 := by
  obtain ⟨hcode, hlast, -, hscl, -⟩ := packWord_inj.mp h
  have hphase : Phase.ofCode? p.code = some d.phase := (Phase.ofCode?_eq_some_iff _ _).mpr hcode.symm
  exact ⟨(Option.some.inj (p.ofCode?_code ▸ hphase)).symm, hlast.symm, hscl.symm⟩

/-- The four forms of an operation's outputs, and the operation and bit position behind each two-event form (R51). -/
theorem ExecEffect.output_cases {i : Instr} {s : State} {d : Decoder} {o : Output Timestamp}
    (h : ExecEffect i s d o) :
    o.events = [] ∨
    (∃ g, o = .ofText s.port.tsIn g) ∨
    (∃ a, o = .ofAddress s.port.tsIn a ∧ (∃ ld b, i = .addrbit ld b) ∧ s.dec.bitPosition = 6#3) ∨
    (∃ v, o = .ofData s.port.tsIn v ∧ (∃ ld b, i = .databit ld b) ∧ s.dec.bitPosition = 7#3) := by
  cases i
  case nochg00 | nochg01 | nochg10 | nochg11 | clkfall | setupR | setupF | idlebit =>
    obtain ⟨rfl, -⟩ := h
    exact .inl rfl
  case start | stop | dirbit | ackbit =>
    obtain ⟨rfl, -⟩ := h
    exact .inr (.inl ⟨_, rfl⟩)
  case addrbit ld b =>
    obtain ⟨-, ⟨hbp, rfl, -⟩ | ⟨-, rfl, -⟩⟩ := h
    · exact .inr (.inr (.inl ⟨_, rfl, ⟨ld, b, rfl⟩, hbp⟩))
    · exact .inl rfl
  case databit ld b =>
    obtain ⟨hbp, rfl, -⟩ | ⟨-, rfl, -⟩ := h
    · exact .inr (.inr (.inr ⟨_, rfl, ⟨ld, b, rfl⟩, hbp⟩))
    · exact .inl rfl

end Machine

end Sys2Proof
end

section
/-!
PROOFS, the statements about the encoding: the table, the classifier, the codes, the outputs of a step by their codes,
and what a transaction asks for.
-/

namespace Sys2Proof.Machine

/-! ## The event sequence and the tag codes -/

/-- Settles O38, from the four forms of an operation's outputs: each is a permitted sequence, and a two-event sequence
fixes the operation, whose word fixes the phase and the rising edge. -/
theorem eventSequenceIsPermitted : Obligations.EventSequenceIsPermitted := by
  intro s t ts scl sda rest hp h
  obtain ⟨i, hword, hexec⟩ := step_sample_cases hp h
  obtain ⟨d, o, rfl, -, -, heff⟩ := exec_cases hexec
  obtain hnil | ⟨g, rfl⟩ | ⟨a, rfl, ⟨ld, b, rfl⟩, hbp⟩ | ⟨v, rfl, ⟨ld, b, rfl⟩, hbp⟩ :=
    heff.output_cases
  · exact ⟨.inl hnil, by simp [hnil]⟩
  · exact ⟨.inr (.inl ⟨g, rfl, rfl⟩), by simp [Output.ofText]⟩
  · obtain ⟨hphase, hedge⟩ := risingEdge_of_dispatchWord (p := .readAddress) hword
    exact ⟨.inr (.inr (.inl ⟨a, rfl, rfl⟩)), fun _ _ => ⟨hphase, hbp, hedge⟩, by simp [Output.ofAddress]⟩
  · obtain ⟨hphase, hedge⟩ := risingEdge_of_dispatchWord (p := .readData) hword
    exact ⟨.inr (.inr (.inr ⟨v, rfl, rfl⟩)), by simp [Output.ofData], fun _ _ => ⟨hphase, hbp, hedge⟩⟩

/-- Settles O41: a reserved code has no tag for the sink to accept, and the text port carries a tag's own code. -/
theorem reservedTagCodesFaultAndAreNeverEmitted : Obligations.ReservedTagCodesFaultAndAreNeverEmitted := by
  refine ⟨fun sink ts c hc => ?_, fun s t ts c _ hport => Output.textPort_code_lt hport⟩
  simp [receiveText, Tag.ofCode?_eq_none hc]

/-- Settles O55, by cases on the operation: the text port of the outputs of its effect; the two completing operations
split on the bit position. -/
theorem textTagCodeByEmitter : Obligations.TextTagCodeByEmitter := by
  refine ⟨fun i s t h => ?_, by decide, fun c => Tag.ofCode?_eq_none⟩
  obtain ⟨d, o, rfl, -, hsda, heff⟩ := exec_cases h
  rw [State.At.record_out]
  cases i
  case nochg00 | nochg01 | nochg10 | nochg11 | clkfall | setupR | setupF | idlebit | stop =>
    obtain ⟨rfl, -⟩ := heff
    rfl
  case start | dirbit | ackbit =>
    obtain ⟨rfl, -⟩ := heff
    simp [startTag_code, directionTag_code, ackTag_code, hsda, encode]
  case addrbit =>
    obtain ⟨-, ⟨hbp, rfl, -⟩ | ⟨hbp, rfl, -⟩⟩ := heff
    · simp [hbp, Tag.code]
    · have hne : s.dec.bitPosition.toNat ≠ 6 := fun hn => hbp (BitVec.eq_of_toNat_eq hn)
      simp [hne]
  case databit =>
    obtain ⟨hbp, rfl, -⟩ | ⟨hbp, rfl, -⟩ := heff
    · simp [hbp, Tag.code]
    · have hne : s.dec.bitPosition.toNat ≠ 7 := fun hn => hbp (BitVec.eq_of_toNat_eq hn)
      simp [hne]

/-! ## The table and the classifier -/

/-- Under a legal phase code one row selects the word (R55, first clause). -/
theorem one_row_of_legal_phase :
    ∀ w : DispatchWord, (wordPhase w).toNat ≤ 4 → (Opcode.all.filter (·.selects w)).length = 1 := by decide

/-- Under a reserved phase code no row selects a BITSAMPLE (R55, R61). -/
theorem no_row_of_reserved_bitsample :
    ∀ (w : DispatchWord) (b : Level), 5 ≤ (wordPhase w).toNat → classify (wordTransition w) = .bitsample b →
      ∀ o ∈ Opcode.all, o.selects w = false := by decide

/-- Under a reserved phase code one row selects any other word, and it is no BITSAMPLE row (R55, R61). -/
theorem one_row_of_reserved_other :
    ∀ w : DispatchWord, 5 ≤ (wordPhase w).toNat → (∀ b, classify (wordTransition w) ≠ .bitsample b) →
      (Opcode.all.filter (·.selects w)).length = 1 ∧
      ∀ o ∈ [Opcode.idlebit, .addrbit, .dirbit, .ackbit, .databit], o.selects w = false := by decide

/-- Settles O5, by evaluating the classifier on the 16 codes. -/
theorem classifierVerdicts : Obligations.ClassifierVerdicts := by
  unfold Obligations.ClassifierVerdicts
  decide

/-- Settles O4: the rows by the phase code and by whether the word is a BITSAMPLE, and the sizes of the groups counted
in the list of the classifier's verdicts. -/
theorem exactlyOneRowPerWord : Obligations.ExactlyOneRowPerWord := by
  refine ⟨one_row_of_legal_phase, ?_, fun w hw => ⟨?_, ?_⟩⟩
  · rw [classifierVerdicts]
    decide
  · rintro ⟨b, hb⟩
    exact no_row_of_reserved_bitsample w b hw hb
  · intro hother
    exact one_row_of_reserved_other w hw (not_exists.mp hother)

/-! ## Codes and levels -/

/-- Settles O6: the codes by evaluation, then the four laws of reading a code back. -/
theorem legalPhaseAndTagCodes : Obligations.LegalPhaseAndTagCodes :=
  ⟨by decide, by decide, Phase.isSome_ofCode?_iff, Phase.ofCode?_eq_some_iff, Tag.isSome_ofCode?_iff,
    Tag.ofCode?_eq_some_iff⟩

/-- Settles O8: a number from 2 on is neither of the two that are read as levels. -/
theorem onlyBitsAreLevels : Obligations.OnlyBitsAreLevels := by
  refine ⟨rfl, rfl, fun n hn => ?_⟩
  have h0 : n ≠ 0 := by omega
  have h1 : n ≠ 1 := by omega
  rw [Level.ofNat?, if_neg h0, if_neg h1]

/-! ## The transaction by its request -/

/-- Settles O11: a step performs the presented transaction, and the two valid bits fix its request. -/
theorem transactionByRequest : Obligations.TransactionByRequest := by
  intro s p rest hin
  rw [step_cons hin]
  refine ⟨?_, ?_, ?_, ?_⟩ <;> rintro ⟨hvalid, hcreate⟩
  · exact ⟨noTransaction (s.present p rest), by simp [transact, InPorts.request, hvalid, hcreate], by simp⟩
  all_goals simp [transact, InPorts.request, hvalid, hcreate]

end Sys2Proof.Machine
end

section
/-!
PROOFS, the rules of a step on a sample: which operation it executes, that this is the step procedure, and that the
procedure only copies the timestamp.
-/

namespace Sys2Proof

/-- Every operation is what its own dispatch word decodes to. -/
theorem decode_encode (i : Instr) : decode (encode i) = .ok i := by
  cases i <;> decide +revert

/-- An operation whose word has a legal phase code is well formed. -/
theorem Instr.wellFormed_of_legalPhaseCode {i : Instr} (h : legalPhaseCode (wordPhase (encode i)) = true) :
    i.wellFormed = true := by
  cases i <;> simp_all [encode, Instr.wellFormed]

namespace Machine

/-! ## The operation of a sample -/

/-- Every decoder state and sample have the dispatch word of an operation: the row that R55 gives a legal phase. -/
theorem exists_encode_eq_dispatchWord (d : Decoder) (scl sda : Level) : ∃ i, encode i = dispatchWord d scl sda := by
  have hlegal : (wordPhase (dispatchWord d scl sda)).toNat ≤ 4 :=
    (Phase.isSome_ofCode?_iff _).mp (by simp [dispatchWord])
  obtain ⟨o, ho⟩ := List.length_eq_one_iff.mp (one_row_of_legal_phase _ hlegal)
  have hsel : o ∈ Opcode.all.filter (·.selects (dispatchWord d scl sda)) := by simp [ho]
  exact ⟨_, encode_build o _ (List.mem_filter.mp hsel).2⟩

/-- A sample executes the operation whose word is its dispatch word. -/
theorem runSample_eq_exec {s : State} {i : Instr} (h : encode i = s.word) : runSample s = exec i s := by
  have hdecode : decode s.word = .ok i := h ▸ decode_encode i
  have hwf : i.wellFormed = true :=
    Instr.wellFormed_of_legalPhaseCode (by simp [h, State.At.word, dispatchWord, Phase.legal_code])
  simp [runSample, selectOp, hdecode, hwf]

/-- A step on a presented sample executes the operation whose word is the step's dispatch word. -/
theorem step_eq_exec {s : State} {ts : Timestamp} {scl sda : Level} {rest : List (InPorts Timestamp)} {i : Instr}
    (hp : s.Presents ts scl sda rest) (h : encode i = dispatchWord s.dec scl sda) :
    step s = exec i (s.present (InPorts.sample ts scl sda) rest) := by
  rw [step_sample hp]
  exact runSample_eq_exec h

/-- A silent operation writes the levels, and no output is valid after it. -/
theorem silentStep_eq {τ : Type} (scl sda : Level) (s : State.At τ) :
    silentStep scl sda s = .next { s with dec := s.dec.setLevels scl sda, out := .silent } := by
  rw [silentStep, finish_eq, record_silent]

/-- Repeated levels select a NOCHG row, which writes the levels it finds (R68). -/
theorem exists_nochg (d : Decoder) :
    ∃ i, encode i = dispatchWord d d.lastScl d.lastSda ∧
      i.opcode ∈ [Opcode.nochg00, .nochg01, .nochg10, .nochg11] ∧
      ∀ s : State, exec i s = silentStep d.lastScl d.lastSda s := by
  unfold dispatchWord
  obtain hscl | hscl := BitVec.eq_zero_or_eq_one d.lastScl <;>
    obtain hsda | hsda := BitVec.eq_zero_or_eq_one d.lastSda <;> rw [hscl, hsda]
  · exact ⟨.nochg00 d.phase.code, rfl, by simp [Instr.opcode], fun _ => rfl⟩
  · exact ⟨.nochg01 d.phase.code, rfl, by simp [Instr.opcode], fun _ => rfl⟩
  · exact ⟨.nochg10 d.phase.code, rfl, by simp [Instr.opcode], fun _ => rfl⟩
  · exact ⟨.nochg11 d.phase.code, rfl, by simp [Instr.opcode], fun _ => rfl⟩

/-- A step on a repeated sample takes it from the stream and changes nothing but the ports and the outputs. -/
theorem step_repeated {s : State} {ts : Timestamp} {rest : List (InPorts Timestamp)}
    (hp : s.Presents ts s.dec.lastScl s.dec.lastSda rest) :
    step s = .next
      { s with input := rest, port := InPorts.sample ts s.dec.lastScl s.dec.lastSda, out := .silent } := by
  obtain ⟨i, hword, -, hexec⟩ := exists_nochg s.dec
  rw [step_eq_exec hp hword, hexec, silentStep_eq]
  rfl

/-! ## The step procedure -/

/-- The class of an operation: the classifier's verdict on its row (R52, R54). -/
def transitionClassOf : Instr → TransitionClass
  | .nochg00 _ | .nochg01 _ | .nochg10 _ | .nochg11 _ => .nochg
  | .clkfall _ _ _ => .clkfall
  | .setupR _ | .setupF _ => .setup
  | .start _ => .start
  | .stop _ => .stop
  | .idlebit _ b | .addrbit _ b | .dirbit _ b | .ackbit _ b | .databit _ b => .bitsample b

/-- The classifier gives the word of an operation the operation's class. -/
theorem classify_encode (i : Instr) : classify (wordTransition (encode i)) = transitionClassOf i := by
  cases i <;> decide +revert

/-- The classifier gives a step the class of the operation of its dispatch word. -/
theorem classify_transitionCode {i : Instr} {d : Decoder} {scl sda : Level} (h : encode i = dispatchWord d scl sda) :
    classify (transitionCode d scl sda) = transitionClassOf i := by
  rw [← classify_encode, h, dispatchWord, wordTransition_packWord, transitionCode]

/-- What the operation of a step's dispatch word can do is what the procedure operates for its class. A BITSAMPLE's
word fixes the phase; the completing operations split on the bit position. -/
theorem ExecEffect.operate_eq {i : Instr} {s : State} {d : Decoder} {o : Output Timestamp}
    (hword : encode i = s.word) (hsda : d.lastSda = wordBit (encode i) 0) (heff : ExecEffect i s d o) :
    operate (transitionClassOf i) s.dec s.port.tsIn =
      some ⟨o, d.phase, d.bitPosition, d.byteAccumulator⟩ := by
  cases i <;> simp only [encode, wordBit_packWord_zero] at hsda
  case nochg00 | nochg01 | nochg10 | nochg11 | clkfall | setupR | setupF | start | stop =>
    obtain ⟨rfl, hphase', hbits, hacc⟩ := heff
    rw [hphase', hbits, hacc]
    rfl
  case idlebit ld b =>
    obtain ⟨hphase, -⟩ := risingEdge_of_dispatchWord (p := .idle) hword
    obtain ⟨rfl, hphase', hbits, hacc⟩ := heff
    simp [operate, transitionClassOf, phaseAction, Decoder.unchanged, hphase, hphase', hbits, hacc, hsda]
  case addrbit ld b =>
    obtain ⟨hphase, -⟩ := risingEdge_of_dispatchWord (p := .readAddress) hword
    obtain ⟨hne7, ⟨hbp, rfl, hphase', hbits, hacc⟩ | ⟨hne6, rfl, hphase', hbits, hacc⟩⟩ := heff
    · simp [operate, transitionClassOf, phaseAction, insertAddressBit, hphase, hbp, hphase', hbits, hacc, hsda]
    · have h7 : s.dec.bitPosition.toNat ≠ 7 := BitVec.toNat_ne_iff_ne.mpr hne7
      have h6 : s.dec.bitPosition.toNat ≠ 6 := BitVec.toNat_ne_iff_ne.mpr hne6
      simp [operate, transitionClassOf, phaseAction, insertAddressBit, hphase, h7, h6, hphase', hbits, hacc, hsda]
  case dirbit ld b =>
    obtain ⟨hphase, -⟩ := risingEdge_of_dispatchWord (p := .readDirection) hword
    obtain ⟨rfl, hphase', hbits, hacc⟩ := heff
    simp [operate, transitionClassOf, phaseAction, directionTag, hphase, hphase', hbits, hacc, hsda]
  case ackbit ld b =>
    obtain ⟨hphase, -⟩ := risingEdge_of_dispatchWord (p := .readAck) hword
    obtain ⟨rfl, hphase', hbits, hacc⟩ := heff
    simp [operate, transitionClassOf, phaseAction, ackTag, hphase, hphase', hbits, hacc, hsda]
  case databit ld b =>
    obtain ⟨hphase, -⟩ := risingEdge_of_dispatchWord (p := .readData) hword
    obtain ⟨hbp, rfl, hphase', hbits, hacc⟩ | ⟨hne7, rfl, hphase', hbits, hacc⟩ := heff
    · simp [operate, transitionClassOf, phaseAction, insertDataBit, hphase, hbp, hphase', hbits, hacc, hsda]
    · have h7 : s.dec.bitPosition.toNat ≠ 7 := BitVec.toNat_ne_iff_ne.mpr hne7
      simp [operate, transitionClassOf, phaseAction, insertDataBit, hphase, h7, hphase', hbits, hacc, hsda]

/-- What the operation of a step's dispatch word can do is what the step procedure gives: the levels of its word are
those of the sample. -/
theorem ExecEffect.stepProcedure_eq {i : Instr} {s : State} {d : Decoder} {o : Output Timestamp}
    (hword : encode i = s.word) (hscl : d.lastScl = wordBit (encode i) 1) (hsda : d.lastSda = wordBit (encode i) 0)
    (heff : ExecEffect i s d o) :
    stepProcedure s.dec s.port.sclIn s.port.sdaIn s.port.tsIn = some (d, o) := by
  have hsclIn : d.lastScl = s.port.sclIn := by simp [hscl, hword, State.At.word, dispatchWord]
  have hsdaIn : d.lastSda = s.port.sdaIn := by simp [hsda, hword, State.At.word, dispatchWord]
  rw [stepProcedure, classify_transitionCode hword, heff.operate_eq hword hsda, ← hsclIn, ← hsdaIn]

/-- Where the step procedure gives a decoder and outputs, the sample puts them in the machine. -/
theorem sampleProcedure_of_stepProcedure {τ : Type} {s : State.At τ} {d : Decoder} {o : Output τ}
    (h : stepProcedure s.dec s.port.sclIn s.port.sdaIn s.port.tsIn = some (d, o)) :
    sampleProcedure s = .next (State.At.record { s with dec := d } o) := by
  rw [sampleProcedure, h]

/-- One sample by the table is one sample by the step procedure, the refused ADDRBIT included. -/
theorem runSample_eq_sampleProcedure (s : State) : runSample s = sampleProcedure s := by
  obtain ⟨i, hword⟩ := exists_encode_eq_dispatchWord s.dec s.port.sclIn s.port.sdaIn
  rw [runSample_eq_exec hword]
  obtain ⟨t, ht⟩ | ⟨⟨ld, b, rfl⟩, hbp, hrefused⟩ := exec_next_or_overrun i s
  · obtain ⟨d, o, rfl, hscl, hsda, heff⟩ := exec_cases ht
    rw [ht, sampleProcedure_of_stepProcedure (heff.stepProcedure_eq hword hscl hsda)]
  · obtain ⟨hphase, -⟩ := risingEdge_of_dispatchWord (p := .readAddress) hword
    rw [hrefused, sampleProcedure, stepProcedure, classify_transitionCode hword]
    simp [operate, transitionClassOf, phaseAction, hphase, hbp]

/-- One transaction by the table is one transaction by the step procedure. -/
theorem transact_eq_transactProcedure (s : State) : transact s = transactProcedure s := by
  unfold transact transactProcedure
  cases s.port.request with
  | nothing | create | both => rfl
  | sample => exact runSample_eq_sampleProcedure s

/-- The machine's step is the step by the step procedure (R43, R66). -/
theorem step_eq_procedureStep (s : State) : step s = procedureStep s := by
  cases hin : s.input with
  | nil => rw [step_nil hin, procedureStep, hin]
  | cons p rest =>
    rw [step_cons hin, procedureStep, hin]
    exact transact_eq_transactProcedure (s.present p rest)

/-- The step procedure gives nothing only for an address bit at `bitPosition = 7` (D13). -/
theorem stepProcedure_eq_none {τ : Type} {d : Decoder} {scl sda : Level} {ts : τ}
    (h : stepProcedure d scl sda ts = none) : d.phase = .readAddress ∧ d.bitPosition.toNat = 7 := by
  unfold stepProcedure at h
  cases hclass : classify (transitionCode d scl sda) with
  | nochg | clkfall | setup | start | stop => simp [hclass, operate] at h
  | bitsample b =>
    cases hphase : d.phase with
    | idle | readDirection | readAck => simp [hclass, operate, phaseAction, hphase] at h
    | readAddress =>
      refine ⟨rfl, ?_⟩
      by_contra hne
      simp only [hclass, operate, phaseAction, hphase, if_neg hne] at h
      split_ifs at h
    | readData =>
      simp only [hclass, operate, phaseAction, hphase] at h
      split_ifs at h

/-- A step by the procedure reads its transaction from the stream, not from the ports or the last outputs. -/
theorem procedureStep_of_port_out {τ : Type} {s : State.At τ} {p : InPorts τ} {rest : List (InPorts τ)}
    (hin : s.input = p :: rest) (q : InPorts τ) (o : Output τ) :
    procedureStep { s with port := q, out := o } = procedureStep s := by
  simp only [procedureStep, hin]
  rfl

/-! ## Renamed timestamps -/

section mapTs

variable {σ τ : Type} (f : σ → τ)

/-- A renaming of the timestamps in what an operation gives. -/
def Operated.mapTs (r : Operated σ) : Operated τ :=
  { out := r.out.mapTs f, phase := r.phase, bitPosition := r.bitPosition, byteAccumulator := r.byteAccumulator }

/-- A phase action puts its timestamp into its outputs and reads it nowhere else. -/
theorem phaseAction_mapTs (d : Decoder) (b : Level) (ts : σ) :
    phaseAction d b (f ts) = (phaseAction d b ts).map (Operated.mapTs f) := by
  cases hphase : d.phase <;> simp only [phaseAction, hphase]
  case readAddress => split_ifs <;> rfl
  case readData => split_ifs <;> rfl
  all_goals rfl

/-- An operation puts its timestamp into its outputs and reads it nowhere else. -/
theorem operate_mapTs (c : TransitionClass) (d : Decoder) (ts : σ) :
    operate c d (f ts) = (operate c d ts).map (Operated.mapTs f) := by
  cases c with
  | nochg | clkfall | setup | start | stop => rfl
  | bitsample b => exact phaseAction_mapTs f d b ts

/-- The step procedure on a renamed timestamp gives the same decoder and the renamed outputs. -/
theorem stepProcedure_mapTs (d : Decoder) (scl sda : Level) (ts : σ) :
    stepProcedure d scl sda (f ts) = (stepProcedure d scl sda ts).map (Prod.map id (Output.mapTs f)) := by
  simp only [stepProcedure, operate_mapTs f]
  cases operate (classify (transitionCode d scl sda)) d ts <;> rfl

/-- A renaming keeps the diagnostic. -/
@[simp] theorem Output.mapTs_diag (o : Output σ) : (o.mapTs f).diag = o.diag := rfl

/-- Recording renamed outputs renames what is recorded. -/
theorem record_mapTs (s : State.At σ) (o : Output σ) : (s.mapTs f).record (o.mapTs f) = (s.record o).mapTs f := by
  simp [State.At.record, State.At.mapTs, Option.toList_map]

/-- A sample by the step procedure commutes with a renaming. -/
theorem sampleProcedure_mapTs (s : State.At σ) :
    sampleProcedure (s.mapTs f) = mapNext (State.At.mapTs f) (sampleProcedure s) := by
  simp only [sampleProcedure, State.At.mapTs_dec, State.At.mapTs_port, InPorts.mapTs_sclIn, InPorts.mapTs_sdaIn,
    InPorts.mapTs_tsIn, stepProcedure_mapTs f]
  cases stepProcedure s.dec s.port.sclIn s.port.sdaIn s.port.tsIn with
  | none => rfl
  | some r => exact congrArg _ (record_mapTs f { s with dec := r.1 } r.2)

/-- A transaction by the step procedure commutes with a renaming. -/
theorem transactProcedure_mapTs (s : State.At σ) :
    transactProcedure (s.mapTs f) = mapNext (State.At.mapTs f) (transactProcedure s) := by
  simp only [transactProcedure, State.At.mapTs_port, InPorts.mapTs_request]
  cases s.port.request with
  | nothing | create | both => rfl
  | sample => exact sampleProcedure_mapTs f s

/-- The step by the step procedure commutes with a renaming, into any type of timestamps (R79). -/
theorem procedureStep_mapTs (s : State.At σ) :
    procedureStep (s.mapTs f) = mapNext (State.At.mapTs f) (procedureStep s) := by
  cases hin : s.input with
  | nil => simp only [procedureStep, State.At.mapTs_input, hin]; rfl
  | cons p rest =>
    simp only [procedureStep, State.At.mapTs_input, hin, List.map_cons]
    exact transactProcedure_mapTs f (s.present p rest)

end mapTs

/-- Every event of an operation carries the timestamp on the ports (R79). -/
theorem ExecEffect.event_ts {i : Instr} {s : State} {d : Decoder} {o : Output Timestamp} (h : ExecEffect i s d o) :
    ∀ e ∈ o.events, e.ts = s.port.tsIn := by
  obtain hnil | ⟨g, rfl⟩ | ⟨a, rfl, -⟩ | ⟨v, rfl, -⟩ := h.output_cases
  · simp [hnil]
  · simp [Output.ofText, Event.ts]
  · simp [Output.ofAddress, Event.ts]
  · simp [Output.ofData, Event.ts]

end Machine

end Sys2Proof
end

section
/-!
PROOFS, the statements about the classifier: the step procedure, the copied timestamp, the transition classes and the
number of outputs.
-/

namespace Sys2Proof.Machine

/-! ## The step procedure and the timestamp -/

/-- Settles O16: the table's step is the procedure's, and under the invariant `bitPosition` is not 7 in ReadAddress. -/
theorem stepIsTheStepProcedure : Obligations.StepIsTheStepProcedure := by
  intro s ts scl sda rest hp
  refine ⟨fun d o hproc => ?_, fun hinv => ?_⟩
  · rw [step_sample hp, runSample_eq_sampleProcedure]
    exact sampleProcedure_of_stepProcedure hproc
  · by_contra hnone
    obtain ⟨hphase, hbp⟩ := stepProcedure_eq_none (Option.not_isSome_iff_eq_none.mp hnone)
    obtain ⟨haddress, -⟩ := hinv
    obtain ⟨hle, -⟩ := haddress hphase
    omega

/-- Settles O49: the step is the procedure's, which commutes with every renaming, and an operation's events carry the
timestamp on the ports. -/
theorem timestampsAreOnlyCopied : Obligations.TimestampsAreOnlyCopied := by
  refine ⟨fun f s => ?_, fun s t ts scl sda rest hp h => ?_⟩
  · rw [step_eq_procedureStep, step_eq_procedureStep, procedureStep_mapTs]
  · obtain ⟨i, -, hexec⟩ := step_sample_cases hp h
    obtain ⟨d, o, rfl, -, -, heff⟩ := exec_cases hexec
    exact heff.event_ts

/-! ## The rising edge and the repeated sample -/

/-- Settles O15: by the phase, the word of the phase's row is the step's dispatch word. -/
theorem risingEdgeDispatchesOnPhase : Obligations.RisingEdgeDispatchesOnPhase := by
  intro s ts b rest hscl hp
  cases hphase : s.dec.phase <;> exact step_eq_exec hp (by rw [dispatchWord, hphase, hscl]; rfl)

/-- Settles O18: the selected row is a NOCHG, which writes the levels it finds. -/
theorem repeatedLevelsChangeNothing : Obligations.RepeatedLevelsChangeNothing := by
  intro s ts rest hp
  obtain ⟨i, hword, hrow, -⟩ := exists_nochg s.dec
  exact ⟨⟨i, hword ▸ decode_encode i, hrow⟩, step_repeated hp⟩

/-- Settles O19: the repeated step changes only the ports and the outputs, which the next step does not read. -/
theorem insertedRepeatIsInvisible : Obligations.InsertedRepeatIsInvisible := by
  intro s ts p rest
  have hrep := step_repeated
    (s := { s with input := InPorts.sample ts s.dec.lastScl s.dec.lastSda :: p :: rest }) (ts := ts) rfl
  have hnext := procedureStep_of_port_out (s := { s with input := p :: rest }) rfl
    (InPorts.sample ts s.dec.lastScl s.dec.lastSda) .silent
  refine ⟨⟨_, hrep, rfl, rfl⟩, ?_⟩
  simp only [stepN, hrep, step_eq_procedureStep, hnext]

/-! ## The transition classes -/

/-- Settles O20: a silent operation, and its word is the dispatch word of a fall of SCL. -/
theorem clkfallResult : Obligations.ClkfallResult := by
  refine ⟨fun _ _ sda s => silentStep_eq 0#1 sda s, fun s ts sda rest hscl hp => step_eq_exec hp ?_⟩
  rw [dispatchWord, hscl, encode]

/-- Settles O21: two silent operations, and their words are the dispatch words of a change of SDA under low SCL. -/
theorem setupResult : Obligations.SetupResult := by
  refine ⟨fun _ s => ⟨silentStep_eq 0#1 1#1 s, silentStep_eq 0#1 0#1 s⟩,
    fun s ts rest hscl hsda hp => step_eq_exec hp ?_, fun s ts rest hscl hsda hp => step_eq_exec hp ?_⟩ <;>
    rw [dispatchWord, hscl, hsda, encode]

/-- Settles O22: the recorded text event; the dispatch word of SDA falling under high SCL; and the low SDA that START
leaves, where a START's word has a high one. -/
theorem startResult : Obligations.StartResult := by
  refine ⟨fun _ s => ?_, fun s ts rest hscl hsda hp => step_eq_exec hp ?_, ?_⟩
  · rw [exec, execStart, finish_eq, record_ofText]
    rfl
  · rw [dispatchWord, hscl, hsda, encode]
  · intro phase s t scl sda i h hdecode hstart
    obtain ⟨d, o, rfl, -, hsda, -⟩ := exec_cases h
    cases i <;> cases hstart
    have hword := packWord_inj.mp (encode_of_decode hdecode)
    simp [hsda, encode] at hword

/-- Settles O23: the recorded text event, and the dispatch word of SDA rising under high SCL. -/
theorem stopResult : Obligations.StopResult := by
  refine ⟨fun _ s => ?_, fun s ts rest hscl hsda hp => step_eq_exec hp ?_⟩
  · rw [exec, execStop, finish_eq, record_ofText]
    rfl
  · rw [dispatchWord, hscl, hsda, encode]

/-! ## The number of outputs -/

/-- Settles O37, by cases on the operation: the outputs of its effect; the completing operations split on the bit
position. -/
theorem outputsOfEachOperation : Obligations.OutputsOfEachOperation := by
  intro i s t h
  obtain ⟨d, o, rfl, -, -, heff⟩ := exec_cases h
  rw [State.At.record_out]
  cases i
  case nochg00 | nochg01 | nochg10 | nochg11 | clkfall | setupR | setupF =>
    obtain ⟨rfl, -⟩ := heff
    exact ⟨rfl, rfl⟩
  case start | stop | dirbit | ackbit =>
    obtain ⟨rfl, -⟩ := heff
    exact ⟨⟨_, rfl⟩, rfl⟩
  case idlebit =>
    obtain ⟨rfl, -⟩ := heff
    exact ⟨rfl, _, rfl⟩
  case addrbit =>
    obtain ⟨-, ⟨hbp, rfl, -⟩ | ⟨hbp, rfl, -⟩⟩ := heff
    · simp [Instr.opcode, hbp, Output.ofAddress]
    · have hne : s.dec.bitPosition.toNat ≠ 6 := BitVec.toNat_ne_iff_ne.mpr hbp
      simp [Instr.opcode, hne, Output.silent]
  case databit =>
    obtain ⟨hbp, rfl, -⟩ | ⟨hbp, rfl, -⟩ := heff
    · simp [Instr.opcode, hbp, Output.ofData]
    · have hne : s.dec.bitPosition.toNat ≠ 7 := BitVec.toNat_ne_iff_ne.mpr hbp
      simp [Instr.opcode, hne, Output.silent]

end Sys2Proof.Machine
end

section
/-!
PROOFS, the rules of the phase actions: the bit insertion, the counting bit operations, and which operation can leave
Idle or emit a diagnostic.
-/

namespace Sys2Proof.Machine

/-! ## The bit insertion -/

/-- The bits of an accumulator after an insertion (R89). -/
theorem getLsbD_insertBit (acc : Byte) {k : Nat} (hk : k < 8) (b : Level) (j : Nat) :
    (insertBit acc k b).getLsbD j = if j = k then b.getLsbD 0 else acc.getLsbD j := by
  obtain hlt | rfl | hgt := Nat.lt_trichotomy j k
  · have hj : j < 8 := by omega
    have hsub : j - k = 0 := by omega
    simp [insertBit, hlt, hlt.ne, hj]
  · simp [insertBit, hk]
  · have hone : j - k ≠ 0 := by omega
    have hb : b.getLsbD (j - k) = false := BitVec.getLsbD_of_ge b _ (by omega)
    by_cases hj : j < 8
    · simp [insertBit, hgt.ne', hgt.not_gt, hj, hone, hb]
    · simp [hgt.ne', BitVec.getLsbD_of_ge _ j (not_lt.mp hj)]

/-- Inserting into a 0 bit is an OR with the shifted bit (R89). -/
theorem insertBit_eq_or {acc : Byte} {k : Nat} (hk : k < 8) (h : acc.getLsbD k = false) (b : Level) :
    insertBit acc k b = acc ||| (b.zeroExtend 8 <<< k) := by
  have hclear : insertBit acc k 0#1 = acc := by
    refine BitVec.eq_of_getLsbD_eq fun j _ => ?_
    rw [getLsbD_insertBit acc hk]
    split_ifs with hjk
    · simp [hjk, h]
    · rfl
  have hmask : acc &&& ~~~(1#8 <<< k) = acc := by simpa [insertBit] using hclear
  rw [insertBit, hmask]

/-- The bits below `m` of a multiple of `2 ^ m` are 0. -/
theorem getLsbD_eq_false_of_mod {acc : Byte} {k m : Nat} (h : acc.toNat % 2 ^ m = 0) (hk : k < m) :
    acc.getLsbD k = false := by
  have hbit := Nat.testBit_mod_two_pow acc.toNat m k
  rw [h] at hbit
  simpa [hk, BitVec.getLsbD] using hbit.symm

/-- Eight insertions into a cleared accumulator, from bit 7 down to bit 0, make up the byte (R33). -/
theorem insertBit_eight : ∀ b7 b6 b5 b4 b3 b2 b1 b0 : Level,
    insertBit (insertBit (insertBit (insertBit (insertBit (insertBit (insertBit (insertBit
      0#8 7 b7) 6 b6) 5 b5) 4 b4) 3 b3) 2 b2) 1 b1) 0 b0 = b7 ++ b6 ++ b5 ++ b4 ++ b3 ++ b2 ++ b1 ++ b0 := by
  decide

/-- Seven insertions into a cleared accumulator, from bit 6 down to bit 0, leave bit 7 clear (R83). -/
theorem insertBit_seven (b6 b5 b4 b3 b2 b1 b0 : Level) :
    insertBit (insertBit (insertBit (insertBit (insertBit (insertBit (insertBit
      0#8 6 b6) 5 b5) 4 b4) 3 b3) 2 b2) 1 b1) 0 b0 = 0#1 ++ b6 ++ b5 ++ b4 ++ b3 ++ b2 ++ b1 ++ b0 :=
  insertBit_eight 0#1 b6 b5 b4 b3 b2 b1 b0

/-! ## The counting operations -/

section counting

variable {s : State} (ld b : Level)

/-- An address bit that does not complete the field (R82). -/
theorem exec_addrbit_of_lt (h : s.dec.bitPosition.toNat < 6) :
    exec (.addrbit ld b) s =
      .next { s with
        dec := ⟨.readAddress, 1#1, b, s.dec.bitPosition + 1#3, insertAddressBit s.dec b⟩
        out := .silent } := by
  have hne7 : s.dec.bitPosition ≠ 7#3 := fun heq => by simp [heq] at h
  have hne6 : s.dec.bitPosition ≠ 6#3 := fun heq => by simp [heq] at h
  simp only [exec, execAddrbit, bitCount_eq_seven, bitCount_truncate, if_neg hne7, if_neg hne6, finish_eq,
    record_silent]
  rfl

/-- The address bit that completes the field (R82). -/
theorem exec_addrbit_of_eq (h : s.dec.bitPosition = 6#3) :
    exec (.addrbit ld b) s =
      .next { s with
        dec := ⟨.readDirection, 1#1, b, 0#3, 0#8⟩
        out := .ofAddress s.port.tsIn (insertAddressBit s.dec b)
        byteSink := s.byteSink ++ [(s.port.tsIn, insertAddressBit s.dec b)]
        textSink := s.textSink ++ [(s.port.tsIn, .address)] } := by
  have hne7 : s.dec.bitPosition ≠ 7#3 := by simp [h]
  simp only [exec, execAddrbit, bitCount_eq_seven, if_neg hne7, if_pos h, finish_eq, record_ofAddress]
  rfl

/-- A data bit that does not complete the byte (R86). -/
theorem exec_databit_of_lt (h : s.dec.bitPosition.toNat < 7) :
    exec (.databit ld b) s =
      .next { s with
        dec := ⟨.readData, 1#1, b, s.dec.bitPosition + 1#3, insertDataBit s.dec b⟩
        out := .silent } := by
  have hne7 : s.dec.bitPosition ≠ 7#3 := fun heq => by simp [heq] at h
  simp only [exec, execDatabit, bitCount_eq_eight, bitCount_truncate, if_neg hne7, finish_eq, record_silent]
  rfl

/-- The data bit that completes the byte (R86). -/
theorem exec_databit_of_eq (h : s.dec.bitPosition = 7#3) :
    exec (.databit ld b) s =
      .next { s with
        dec := ⟨.readAck, 1#1, b, 0#3, 0#8⟩
        out := .ofData s.port.tsIn (insertDataBit s.dec b)
        byteSink := s.byteSink ++ [(s.port.tsIn, insertDataBit s.dec b)]
        textSink := s.textSink ++ [(s.port.tsIn, .data)] } := by
  simp only [exec, execDatabit, bitCount_eq_eight, if_pos h, finish_eq, record_ofData]
  rfl

/-- A row of operations that begins with the address bit number `n` below 6 goes on with that bit counted. The decoder
and the outputs are arguments, so that a row of such steps rewrites them and no other field. -/
theorem execAll_addrbit {d : Decoder} {o : Output Timestamp} (n : Nat) (hn : n < 6)
    (h : d.bitPosition = BitVec.ofNat 3 n) (is : List Instr) :
    execAll (.addrbit ld b :: is) { s with dec := d, out := o } =
      execAll is { s with
        dec := ⟨.readAddress, 1#1, b, BitVec.ofNat 3 (n + 1), insertBit d.byteAccumulator (6 - n) b⟩
        out := .silent } := by
  have hbp : d.bitPosition.toNat = n := by simp [h]; omega
  rw [execAll, exec_addrbit_of_lt (s := { s with dec := d, out := o }) ld b (by simp only; omega), insertAddressBit,
    hbp, h, BitVec.ofNat_add_ofNat]

end counting

/-! ## Idle -/

/-- IDLEBIT writes the levels and records one diagnostic (R87). -/
theorem exec_idlebit (ld b : Level) (s : State) :
    exec (.idlebit ld b) s =
      .next { s with
        dec := s.dec.setLevels 1#1 b
        out := .ofDiag ⟨s.dec.phase, s.dec.lastScl, s.dec.lastSda, 1#1, b⟩
        diagSink := s.diagSink ++ [⟨s.dec.phase, s.dec.lastScl, s.dec.lastSda, 1#1, b⟩] } := by
  rw [exec, execIdlebit, finish_eq, record_ofDiag]

/-- The operation of a step that leaves Idle is START (R81). -/
theorem ExecEffect.start_of_leaves_idle {i : Instr} {s : State} {d : Decoder} {o : Output Timestamp}
    (heff : ExecEffect i s d o) (hword : encode i = s.word) (hidle : s.dec.phase = .idle) (hleaves : d.phase ≠ .idle) :
    ∃ p, i = .start p := by
  cases i
  case start p => exact ⟨p, rfl⟩
  case nochg00 | nochg01 | nochg10 | nochg11 | clkfall | setupR | setupF | stop | idlebit =>
    obtain ⟨-, hphase, -⟩ := heff
    simp [hphase, hidle] at hleaves
  case addrbit | dirbit | ackbit | databit =>
    obtain ⟨hcode, -⟩ := packWord_inj.mp hword
    rw [hidle] at hcode
    exact absurd hcode (by decide)

/-- The only operation that emits a diagnostic is IDLEBIT (R88). -/
theorem ExecEffect.idlebit_of_diag {i : Instr} {s : State} {d : Decoder} {o : Output Timestamp} {r : Diag}
    (heff : ExecEffect i s d o) (hdiag : o.diag = some r) : ∃ ld b, i = .idlebit ld b := by
  cases i
  case idlebit ld b => exact ⟨ld, b, rfl⟩
  case addrbit => obtain ⟨-, ⟨-, rfl, -⟩ | ⟨-, rfl, -⟩⟩ := heff <;> cases hdiag
  case databit => obtain ⟨-, rfl, -⟩ | ⟨-, rfl, -⟩ := heff <;> cases hdiag
  all_goals
    obtain ⟨rfl, -⟩ := heff
    cases hdiag

end Sys2Proof.Machine
end

section
/-!
PROOFS, the statements about the phase actions: IDLEBIT and its diagnostic, the address and data bits, the direction
and acknowledge bits.
-/

namespace Sys2Proof.Machine

/-! ## Idle -/

/-- Settles O24: the recorded diagnostic; the dispatch word of a rising edge in Idle; and START, the one operation that
leaves Idle, whose word fixes the levels. -/
theorem idlebitResult : Obligations.IdlebitResult := by
  refine ⟨exec_idlebit, fun s ts sda rest hphase hscl hp => ?_, fun s t hidle h hleaves => ?_⟩
  · have hword : encode (.idlebit s.dec.lastSda sda) = dispatchWord s.dec 1#1 sda := by
      rw [dispatchWord, hphase, hscl]
      rfl
    exact ⟨_, (step_eq_exec hp hword).trans (exec_idlebit _ _ _), by simp [Output.ofDiag, hphase, hscl]⟩
  · obtain ⟨-, rfl⟩ | ⟨p, rest, hin, ⟨-, rfl⟩ | ⟨-, rfl⟩ | ⟨hreq, hrun⟩⟩ := step_cases h
    · exact absurd hidle hleaves
    · exact absurd hidle hleaves
    · exact absurd rfl hleaves
    · obtain ⟨i, hword, hexec⟩ := runSample_cases hrun
      obtain ⟨d, o, rfl, -, -, heff⟩ := exec_cases hexec
      obtain ⟨phase, rfl⟩ := heff.start_of_leaves_idle hword hidle hleaves
      obtain ⟨-, hlastScl, hlastSda, hscl, hsda⟩ := packWord_inj.mp hword
      simp only [State.At.present_port, State.At.present_dec] at hlastScl hlastSda hscl hsda
      refine ⟨hlastScl.symm, hlastSda.symm, p.tsIn, rest, ?_⟩
      rw [State.At.Presents, hin, InPorts.eq_sample hreq, ← hscl, ← hsda]
      rfl

/-- Settles O39: a diagnostic is an IDLEBIT's, whose word is that of a rising edge in Idle. -/
theorem diagnosticOnlyFromIdlebit : Obligations.DiagnosticOnlyFromIdlebit := by
  intro s t ts scl sda rest r hp h hdiag
  obtain ⟨i, hword, hexec⟩ := step_sample_cases hp h
  obtain ⟨d, o, rfl, -, -, heff⟩ := exec_cases hexec
  obtain ⟨ld, b, rfl⟩ := heff.idlebit_of_diag hdiag
  obtain ⟨hphase, hlastScl, rfl⟩ := risingEdge_of_dispatchWord (p := .idle) hword
  obtain ⟨-, -, -, -, rfl⟩ := packWord_inj.mp hword
  rw [exec_idlebit] at hexec
  injection hexec with hnext
  rw [← hnext] at hdiag ⊢
  cases hdiag
  exact ⟨hphase, hlastScl, rfl, rfl, rfl, rfl, rfl, rfl, rfl, rfl, rfl⟩

/-! ## The bit insertion -/

/-- Settles O30: the bits after an insertion; and under the invariant the accumulator is a multiple of a power of 2
that leaves the written bit 0. -/
theorem insertionReplacesOneBit : Obligations.InsertionReplacesOneBit := by
  refine ⟨fun acc k b hk => ⟨?_, fun j hj => ?_⟩, fun d b hinv hphase => ?_, fun d b hinv hphase => ?_⟩
  · rw [getLsbD_insertBit acc hk, if_pos rfl]
  · rw [getLsbD_insertBit acc hk, if_neg hj]
  · obtain ⟨haddress, -⟩ := hinv
    obtain ⟨hle, -, hmod⟩ := haddress hphase
    have hzero : d.byteAccumulator.getLsbD (6 - d.bitPosition.toNat) = false :=
      getLsbD_eq_false_of_mod hmod (by omega)
    exact ⟨hzero, insertBit_eq_or (by omega) hzero b⟩
  · obtain ⟨-, -, -, hdata⟩ := hinv
    have hlt : d.bitPosition.toNat < 8 := d.bitPosition.isLt
    have hzero : d.byteAccumulator.getLsbD (7 - d.bitPosition.toNat) = false :=
      getLsbD_eq_false_of_mod (hdata hphase) (by omega)
    exact ⟨hzero, insertBit_eq_or (by omega) hzero b⟩

/-! ## The address and data bits -/

/-- Settles O25: the counted bit below 6, and the completing bit at 6, which goes to bit 0. -/
theorem addrbitResult : Obligations.AddrbitResult := by
  refine fun ld b s => ⟨fun hlt => exec_addrbit_of_lt ld b hlt, fun heq => ?_⟩
  have hsix : s.dec.bitPosition = 6#3 := BitVec.eq_of_toNat_eq heq
  rw [exec_addrbit_of_eq ld b hsix, insertAddressBit, heq]
  rfl

/-- Settles O29: the counted bit below 7, and the completing bit at 7, which goes to bit 0. -/
theorem databitResult : Obligations.DatabitResult := by
  refine fun ld b s => ⟨fun hlt => exec_databit_of_lt ld b hlt, fun heq => ?_⟩
  have hseven : s.dec.bitPosition = 7#3 := BitVec.eq_of_toNat_eq heq
  rw [exec_databit_of_eq ld b hseven, insertDataBit, heq]
  rfl

/-- Settles O31: six counted bits, then the completing bit; the seven insertions make up the byte. -/
theorem addressByteIsTheSevenBits : Obligations.AddressByteIsTheSevenBits := by
  intro s l6 l5 l4 l3 l2 l1 l0 b6 b5 b4 b3 b2 b1 b0 hbp hacc
  rw [execAll_addrbit l6 b6 0 (by decide) hbp, execAll_addrbit l5 b5 1 (by decide) rfl,
    execAll_addrbit l4 b4 2 (by decide) rfl, execAll_addrbit l3 b3 3 (by decide) rfl,
    execAll_addrbit l2 b2 4 (by decide) rfl, execAll_addrbit l1 b1 5 (by decide) rfl,
    execAll, exec_addrbit_of_eq l0 b0 rfl, hacc, ← insertBit_seven]
  rfl

/-! ## The direction and acknowledge bits -/

/-- Settles O27: the recorded text event; only the phase and the levels are written. -/
theorem dirbitResult : Obligations.DirbitResult := by
  intro ld b s
  rw [exec, execDirbit, finish_eq, record_ofText]
  rfl

/-- Settles O28: the recorded text event, and the bit state cleared. -/
theorem ackbitResult : Obligations.AckbitResult := by
  intro ld b s
  rw [exec, execAckbit, finish_eq, record_ofText]
  rfl

/-- Settles O33: the two results with 0 and with 1; the cleared bit state counts the next data bit as the first; and the
dispatch word of a rising edge in ReadData. -/
theorem directionAndAckAreOnlyReported : Obligations.DirectionAndAckAreOnlyReported := by
  refine ⟨fun ld s => ?_, fun ld s => ?_, fun s ts b rest hphase hscl hp => step_eq_exec hp ?_⟩
  · exact ⟨_, _, dirbitResult ld 0#1 s, dirbitResult ld 1#1 s, rfl, rfl, rfl, rfl⟩
  · refine ⟨_, _, ackbitResult ld 0#1 s, ackbitResult ld 1#1 s, rfl, rfl, rfl, rfl, fun l b => ?_⟩
    exact ⟨_, exec_databit_of_lt l b (by simp), rfl, rfl, rfl⟩
  · rw [dispatchWord, hphase, hscl]
    rfl

end Sys2Proof.Machine
end

section
/-!
PROOFS, the rules of the anomalies: the row of a word is the row of its operation, and which operations report.
-/

namespace Sys2Proof

/-- The operation a row reads from a word is of that row. -/
@[simp] theorem Opcode.opcode_build (o : Opcode) (w : DispatchWord) : (o.build w).opcode = o := by
  cases o <;> rfl

/-- The row of an operation selects its word. -/
theorem Opcode.selects_encode (i : Instr) : i.opcode.selects (encode i) = true := by
  cases i <;> decide +revert

/-- A row selects the word of an operation exactly when the operation is of that row. -/
theorem Opcode.selects_encode_iff (o : Opcode) (i : Instr) : o.selects (encode i) = true ↔ i.opcode = o := by
  constructor
  · intro hsel
    have hdecode := decode_encode (o.build (encode i))
    rw [encode_build o _ hsel, decode_encode i] at hdecode
    rw [Except.ok.inj hdecode, Opcode.opcode_build]
  · rintro rfl
    exact Opcode.selects_encode i

/-- The START row selects the words of transition code 0xE (R54). -/
theorem Opcode.start_selects_iff : ∀ w : DispatchWord, Opcode.start.selects w = true ↔ wordTransition w = 0xE#4 := by
  decide

namespace Machine

/-- The phase codes 1 to 4 are those of the phases other than Idle (R13). -/
theorem Phase.code_toNat_mem_iff (p : Phase) : p.code.toNat ∈ [1, 2, 3, 4] ↔ p ≠ .idle := by
  cases p <;> decide

/-- A START's tag is `START(odd)` outside Idle (R72). -/
theorem startTag_eq_startOdd_iff (p : Phase) : startTag p = .startOdd ↔ p ≠ .idle := by
  cases p <;> decide

/-- A direction bit is not reported as `START(odd)`. -/
theorem directionTag_ne_startOdd : ∀ b : Level, directionTag b ≠ .startOdd := by decide

/-- An acknowledge bit is not reported as `START(odd)`. -/
theorem ackTag_ne_startOdd : ∀ b : Level, ackTag b ≠ .startOdd := by decide

/-- The one text event of `Output.ofText` is the step's `START(odd)` exactly when its tag is. -/
theorem startOdd_mem_ofText_iff {τ : Type} (ts : τ) (g : Tag) :
    .text ts .startOdd ∈ (Output.ofText ts g).events ↔ g = .startOdd := by
  simp [Output.ofText, eq_comm]

/-- `START(odd)` is reported by START outside Idle, and by no other operation (R97). -/
theorem ExecEffect.startOdd_mem_iff {i : Instr} {s : State} {d : Decoder} {o : Output Timestamp}
    (heff : ExecEffect i s d o) :
    .text s.port.tsIn .startOdd ∈ o.events ↔ i.opcode = .start ∧ s.dec.phase ≠ .idle := by
  cases i
  case nochg00 | nochg01 | nochg10 | nochg11 | clkfall | setupR | setupF | idlebit =>
    obtain ⟨rfl, -⟩ := heff
    simp [Output.silent, Output.ofDiag, Instr.opcode]
  case start =>
    obtain ⟨rfl, -⟩ := heff
    simp [startOdd_mem_ofText_iff, startTag_eq_startOdd_iff, Instr.opcode]
  case stop | dirbit | ackbit =>
    obtain ⟨rfl, -⟩ := heff
    simp [startOdd_mem_ofText_iff, directionTag_ne_startOdd, ackTag_ne_startOdd, Instr.opcode]
  case addrbit =>
    obtain ⟨-, ⟨-, rfl, -⟩ | ⟨-, rfl, -⟩⟩ := heff <;> simp [Output.ofAddress, Output.silent, Instr.opcode]
  case databit =>
    obtain ⟨-, rfl, -⟩ | ⟨-, rfl, -⟩ := heff <;> simp [Output.ofData, Output.silent, Instr.opcode]

/-- A diagnostic is emitted by IDLEBIT, and by no other operation (R88, R98). -/
theorem ExecEffect.diag_isSome_iff {i : Instr} {s : State} {d : Decoder} {o : Output Timestamp}
    (heff : ExecEffect i s d o) : o.diag.isSome = true ↔ i.opcode = .idlebit := by
  constructor
  · intro hsome
    obtain ⟨r, hdiag⟩ := Option.isSome_iff_exists.mp hsome
    obtain ⟨ld, b, rfl⟩ := heff.idlebit_of_diag hdiag
    rfl
  · intro hrow
    cases i <;> cases hrow
    obtain ⟨rfl, -⟩ := heff
    rfl

end Machine

end Sys2Proof
end

section
/-!
PROOFS, the statement about the anomalies.
-/

namespace Sys2Proof.Machine

/-- Settles O40: `START(odd)` is START's outside Idle and a diagnostic is IDLEBIT's, and an operation's row is the one
that selects the dispatch word; the record packs to that word. -/
theorem anomaliesByDispatchWord : Obligations.AnomaliesByDispatchWord := by
  intro s t ts scl sda rest hp h
  obtain ⟨i, hword, hexec⟩ := step_sample_cases hp h
  obtain ⟨d, o, rfl, -, -, heff⟩ := exec_cases hexec
  refine ⟨?_, ?_, fun v hport => ?_⟩
  · calc
      _ ↔ i.opcode = .start ∧ s.dec.phase ≠ .idle := heff.startOdd_mem_iff
      _ ↔ _ := by
        rw [← Opcode.selects_encode_iff, hword, Opcode.start_selects_iff, ← Phase.code_toNat_mem_iff, dispatchWord,
          wordPhase_packWord]
  · calc
      _ ↔ i.opcode = .idlebit := by rw [State.At.record_out, Output.diagPort, Option.isSome_map, heff.diag_isSome_iff]
      _ ↔ Opcode.idlebit.selects (dispatchWord s.dec scl sda) = true := by rw [← hword, Opcode.selects_encode_iff]
      _ ↔ _ := beq_iff_eq
  · obtain ⟨r, hdiag, rfl⟩ := Option.map_eq_some_iff.mp hport
    obtain ⟨-, -, -, -, hpacked, -⟩ := diagnosticOnlyFromIdlebit s _ ts scl sda rest r hp h hdiag
    exact hpacked

end Sys2Proof.Machine
end

section
/-!
PROOFS, the rules of reset and hazards: the step of a `create`, and the operation of a sample under low SCL.
-/

namespace Sys2Proof.Machine

/-- A `create` to present starts a session (R116). -/
theorem step_creating {s : State} {ts : Timestamp} {scl sda : Level} {rest : List (InPorts Timestamp)}
    (h : s.input = InPorts.creating ts scl sda :: rest) :
    step s = .next (createSession (s.present (InPorts.creating ts scl sda) rest)) := by
  rw [step_cons h]
  rfl

/-- A level update that finds its SCL level writes only the SDA level. -/
theorem Decoder.setLevels_lastScl_self (d : Decoder) (sda : Level) :
    d.setLevels d.lastScl sda = { d with lastSda := sda } := rfl

/-- While SCL stays low a sample selects a NOCHG or a SETUP row, which is silent (R126). -/
theorem exists_silent_of_low_scl {d : Decoder} (hscl : d.lastScl = 0#1) (sda : Level) :
    ∃ i, encode i = dispatchWord d 0#1 sda ∧ i.opcode ∈ [Opcode.nochg00, .nochg01, .setupR, .setupF] ∧
      ∀ s : State, exec i s = silentStep 0#1 sda s := by
  rw [dispatchWord, hscl]
  obtain hlast | hlast := BitVec.eq_zero_or_eq_one d.lastSda <;> obtain rfl | rfl := BitVec.eq_zero_or_eq_one sda <;>
    rw [hlast]
  · exact ⟨.nochg00 d.phase.code, rfl, by simp [Instr.opcode], fun _ => rfl⟩
  · exact ⟨.setupR d.phase.code, rfl, by simp [Instr.opcode], fun _ => rfl⟩
  · exact ⟨.setupF d.phase.code, rfl, by simp [Instr.opcode], fun _ => rfl⟩
  · exact ⟨.nochg01 d.phase.code, rfl, by simp [Instr.opcode], fun _ => rfl⟩

end Sys2Proof.Machine
end

section
/-!
PROOFS, the statements about reset, `create`, the first sample after it, and clock stretching.
-/

namespace Sys2Proof.Machine

/-- Settles O51: the four words are the words of the four operations; the START that the second one selects reports
`START` in Idle; and a rising edge in Idle is an IDLEBIT. -/
theorem firstSampleAfterCreate : Obligations.FirstSampleAfterCreate := by
  obtain ⟨execStart_eq, step_eq_start, -⟩ := startResult
  obtain ⟨-, step_idleEdge, -⟩ := idlebitResult
  refine ⟨decode_encode (.nochg11 0b000#3), decode_encode (.start 0b000#3), decode_encode (.clkfall 0b000#3 1#1 1#1),
    decode_encode (.clkfall 0b000#3 1#1 0#1), fun ts rest s hcreate hp => ?_, fun s ts sda rest hphase hscl hp => ?_⟩
  · have hstep := step_eq_start s ts rest (by rw [hcreate]; rfl) (by rw [hcreate]; rfl) hp
    exact ⟨_, hstep.trans (execStart_eq _ _), by simp [hcreate, Decoder.create, InPorts.sample]⟩
  · obtain ⟨t, hstep, hdiag⟩ := step_idleEdge s ts sda rest hphase hscl hp
    exact ⟨t, hstep, by rw [hdiag, Option.isSome_some]⟩

/-- Settles O53: the selected row is a silent one, and the level update finds SCL low already. -/
theorem clockStretchingIsSilent : Obligations.ClockStretchingIsSilent := by
  intro s ts sda rest hscl hp
  obtain ⟨i, hword, hrow, hexec⟩ := exists_silent_of_low_scl hscl sda
  refine ⟨⟨i, hword ▸ decode_encode i, hrow⟩, ?_⟩
  rw [step_eq_exec hp hword, hexec, silentStep_eq, State.At.present_dec, ← hscl, Decoder.setLevels_lastScl_self]
  rfl

/-- Settles O13, by evaluating the reset state. -/
theorem resetState : Obligations.ResetState := by
  unfold Obligations.ResetState
  decide

/-- Settles O56: the state that a `create` starts a session in. -/
theorem createWritesTheFiveFields : Obligations.CreateWritesTheFiveFields := by
  intro s ts scl sda rest hin
  exact ⟨_, step_creating hin, rfl, rfl, rfl, fun _ _ => rfl⟩

end Sys2Proof.Machine
end

section
/-!
PROOFS, the rules of a session: which decoders meet the invariant, and that the operation a sample selects keeps it and
goes on.
-/

namespace Sys2Proof.Machine

/-! ## The decoders of the invariant -/

/-- A byte whose bits below `m` are 0 is a multiple of `2 ^ m`; the converse of `getLsbD_eq_false_of_mod`. -/
theorem toNat_mod_eq_zero {acc : Byte} {m : Nat} (h : ∀ k < m, acc.getLsbD k = false) : acc.toNat % 2 ^ m = 0 := by
  refine Nat.eq_of_testBit_eq fun k => ?_
  rw [Nat.testBit_mod_two_pow, Nat.zero_testBit]
  by_cases hk : k < m
  · have hbit : acc.toNat.testBit k = false := h k hk
    simp [hbit]
  · simp [hk]

/-- An insertion at the highest bit that is still free leaves the bits below it free (R19). -/
theorem insertBit_mod {acc : Byte} {k : Nat} (hk : k < 8) (h : acc.toNat % 2 ^ (k + 1) = 0) (b : Level) :
    (insertBit acc k b).toNat % 2 ^ k = 0 := by
  refine toNat_mod_eq_zero fun j hj => ?_
  rw [getLsbD_insertBit acc hk, if_neg hj.ne]
  exact getLsbD_eq_false_of_mod h (by omega)

/-- A byte is below 128 exactly when its bit 7 is 0. -/
theorem toNat_lt_iff_getLsbD_seven (acc : Byte) : acc.toNat < 128 ↔ acc.getLsbD 7 = false := by
  have hmsb : acc.getLsbD 7 = acc.msb := acc.msb_eq_getLsbD_last.symm
  rw [hmsb, BitVec.msb_eq_false_iff_two_mul_lt]
  omega

/-- An insertion below bit 7 keeps a 7-bit value a 7-bit value (R19). -/
theorem insertBit_lt {acc : Byte} {k : Nat} (hk : k < 7) (h : acc.toNat < 128) (b : Level) :
    (insertBit acc k b).toNat < 128 := by
  rw [toNat_lt_iff_getLsbD_seven] at h ⊢
  rw [getLsbD_insertBit acc (by omega), if_neg hk.ne', h]

/-- A bit position below 7 is counted without overflow (R15). -/
theorem bitPosition_add_one : ∀ {bp : BitVec 3}, bp ≠ 7#3 → (bp + 1#3).toNat = bp.toNat + 1 := by decide

section inv

variable {d : Decoder}

/-- In Idle the invariant asks nothing. -/
theorem Decoder.inv_of_idle (h : d.phase = .idle) : d.Inv := by simp [Decoder.Inv, h]

/-- A cleared bit state meets the invariant in every phase (R17). -/
theorem Decoder.inv_of_cleared (hbp : d.bitPosition = 0#3) (hacc : d.byteAccumulator = 0#8) : d.Inv := by
  simp [Decoder.Inv, hbp, hacc]

/-- The invariant reads only the phase and the bit state. -/
theorem Decoder.Inv.of_eq {d' : Decoder} (h : d.Inv) (hphase : d'.phase = d.phase)
    (hbits : d'.bitPosition = d.bitPosition ∧ d'.byteAccumulator = d.byteAccumulator) : d'.Inv := by
  obtain ⟨hbp, hacc⟩ := hbits
  rwa [Decoder.Inv, hphase, hbp, hacc]

/-- In ReadAddress the invariant asks for what it says of that phase. -/
theorem Decoder.inv_of_readAddress (h : d.phase = .readAddress) (hbp : d.bitPosition.toNat ≤ 6)
    (hlt : d.byteAccumulator.toNat < 128) (hmod : d.byteAccumulator.toNat % 2 ^ (7 - d.bitPosition.toNat) = 0) :
    d.Inv := by
  simp [Decoder.Inv, h, hbp, hlt, hmod]

/-- In ReadData the invariant asks for what it says of that phase. -/
theorem Decoder.inv_of_readData (h : d.phase = .readData)
    (hmod : d.byteAccumulator.toNat % 2 ^ (8 - d.bitPosition.toNat) = 0) : d.Inv := by
  simp [Decoder.Inv, h, hmod]

end inv

/-! ## The operation of a sample -/

/-- The operation of a step's dispatch word keeps the invariant. A counted bit goes to the highest free bit of its
field; DIRBIT keeps the bit state, which ReadDirection holds cleared. -/
theorem ExecEffect.keeps_inv {i : Instr} {s : State} {d : Decoder} {o : Output Timestamp}
    (heff : ExecEffect i s d o) (hword : encode i = s.word) (hinv : s.Inv) : d.Inv := by
  cases i
  case nochg00 | nochg01 | nochg10 | nochg11 | clkfall | setupR | setupF | idlebit =>
    obtain ⟨-, hphase, hbits⟩ := heff
    exact hinv.of_eq hphase hbits
  case start | ackbit =>
    obtain ⟨-, -, hbp, hacc⟩ := heff
    exact Decoder.inv_of_cleared hbp hacc
  case stop =>
    obtain ⟨-, hphase, -⟩ := heff
    exact Decoder.inv_of_idle hphase
  case dirbit =>
    obtain ⟨hphase, -⟩ := risingEdge_of_dispatchWord (p := .readDirection) hword
    obtain ⟨-, hdirection, -⟩ := hinv
    obtain ⟨hbp, hacc⟩ := hdirection hphase
    obtain ⟨-, -, hbp', hacc'⟩ := heff
    exact Decoder.inv_of_cleared (hbp'.trans hbp) (hacc'.trans hacc)
  case addrbit =>
    obtain ⟨hphase, -⟩ := risingEdge_of_dispatchWord (p := .readAddress) hword
    obtain ⟨haddress, -⟩ := hinv
    obtain ⟨hle, hlt, hmod⟩ := haddress hphase
    obtain ⟨hne7, ⟨-, -, -, hbp', hacc'⟩ | ⟨hne6, -, hphase', hbp', hacc'⟩⟩ := heff
    · exact Decoder.inv_of_cleared hbp' hacc'
    · have h6 : s.dec.bitPosition.toNat ≠ 6 := BitVec.toNat_ne_iff_ne.mpr hne6
      have hsucc : 7 - s.dec.bitPosition.toNat = 6 - s.dec.bitPosition.toNat + 1 := by omega
      have hfree : 7 - (s.dec.bitPosition.toNat + 1) = 6 - s.dec.bitPosition.toNat := by omega
      rw [hsucc] at hmod
      refine Decoder.inv_of_readAddress hphase' ?_ ?_ ?_
      · rw [hbp', bitPosition_add_one hne7]
        omega
      · rw [hacc']
        exact insertBit_lt (by omega) hlt _
      · rw [hacc', hbp', bitPosition_add_one hne7, hfree]
        exact insertBit_mod (by omega) hmod _
  case databit =>
    obtain ⟨hphase, -⟩ := risingEdge_of_dispatchWord (p := .readData) hword
    obtain ⟨-, -, -, hdata⟩ := hinv
    have hmod := hdata hphase
    obtain ⟨-, -, -, hbp', hacc'⟩ | ⟨hne7, -, hphase', hbp', hacc'⟩ := heff
    · exact Decoder.inv_of_cleared hbp' hacc'
    · have hlt : s.dec.bitPosition.toNat < 8 := s.dec.bitPosition.isLt
      have hsucc : 8 - s.dec.bitPosition.toNat = 7 - s.dec.bitPosition.toNat + 1 := by omega
      have hfree : 8 - (s.dec.bitPosition.toNat + 1) = 7 - s.dec.bitPosition.toNat := by omega
      rw [hsucc] at hmod
      refine Decoder.inv_of_readData hphase' ?_
      rw [hacc', hbp', bitPosition_add_one hne7, hfree]
      exact insertBit_mod (by omega) hmod _

/-- A sample that goes on keeps the invariant. -/
theorem runSample_keeps_inv {s t : State} (hinv : s.Inv) (h : runSample s = .next t) : t.Inv := by
  obtain ⟨i, hword, hexec⟩ := runSample_cases h
  obtain ⟨d, o, rfl, -, -, heff⟩ := exec_cases hexec
  exact heff.keeps_inv hword hinv

/-- A sample goes on, but for an address bit at `bitPosition = 7` (D13). -/
theorem runSample_next_or_overrun (s : State) :
    (∃ t, runSample s = .next t) ∨
    (s.dec.phase = .readAddress ∧ s.dec.bitPosition = 7#3 ∧ runSample s = .refused .addressOverrun) := by
  obtain ⟨i, hword⟩ := exists_encode_eq_dispatchWord s.dec s.port.sclIn s.port.sdaIn
  rw [runSample_eq_exec hword]
  obtain hnext | ⟨⟨ld, b, rfl⟩, hbp, hrefused⟩ := exec_next_or_overrun i s
  · exact .inl hnext
  · obtain ⟨hphase, -⟩ := risingEdge_of_dispatchWord (p := .readAddress) hword
    exact .inr ⟨hphase, hbp, hrefused⟩

/-- Under the invariant a sample goes on: in ReadAddress `bitPosition` is at most 6. -/
theorem runSample_next_of_inv {s : State} (hinv : s.Inv) : ∃ t, runSample s = .next t := by
  obtain hnext | ⟨hphase, hbp, -⟩ := runSample_next_or_overrun s
  · exact hnext
  · obtain ⟨haddress, -⟩ := hinv
    obtain ⟨hle, -⟩ := haddress hphase
    simp [hbp] at hle

/-! ## The step -/

/-- An operation leaves the stream. -/
theorem exec_input {i : Instr} {s t : State} (h : exec i s = .next t) : t.input = s.input := by
  obtain ⟨d, o, rfl, -⟩ := exec_cases h
  rfl

/-- A step takes the next transaction, if any, from the stream. -/
theorem step_input {s t : State} (h : step s = .next t) : t.input = s.input.tail := by
  obtain ⟨hin, rfl⟩ | ⟨p, rest, hin, ⟨-, rfl⟩ | ⟨-, rfl⟩ | ⟨-, hrun⟩⟩ := step_cases h
  · simp [hin]
  · simp [hin]
  · simp [hin]
  · obtain ⟨i, -, hexec⟩ := runSample_cases hrun
    rw [exec_input hexec, hin]
    rfl

/-- Under the invariant a step on an admitted stream goes on. -/
theorem step_next_of_inv {s : State} (hinv : s.Inv) (hadm : s.Admitted) : ∃ t, step s = .next t := by
  cases hin : s.input with
  | nil => exact ⟨_, step_nil hin⟩
  | cons p rest =>
    rw [step_cons hin, transact, State.At.present_port]
    cases hreq : p.request with
    | nothing | create => exact ⟨_, rfl⟩
    | sample => exact runSample_next_of_inv (s := s.present p rest) hinv
    | both => exact absurd hreq (hadm p (by simp [hin]))

end Sys2Proof.Machine
end

section
/-!
PROOFS, the statements about a session.
-/

namespace Sys2Proof.Machine

/-- Settles O45, by what a step can have done: it holds the decoder, creates it in Idle, or runs the operation of a
sample, which keeps the invariant. -/
theorem everyStepKeepsSessionState : Obligations.EveryStepKeepsSessionState := by
  intro s t hinv h
  obtain ⟨-, rfl⟩ | ⟨p, rest, -, ⟨-, rfl⟩ | ⟨-, rfl⟩ | ⟨-, hrun⟩⟩ := step_cases h
  · exact hinv
  · exact hinv
  · exact Decoder.inv_of_idle rfl
  · exact runSample_keeps_inv (s := s.present p rest) hinv hrun

/-- Settles O46: the step goes on, keeps the invariant, and leaves a tail of an admitted stream. -/
theorem admittedStepReturns : Obligations.AdmittedStepReturns := by
  intro s hinv hadm
  obtain ⟨t, ht⟩ := step_next_of_inv hinv hadm
  refine ⟨t, ht, everyStepKeepsSessionState s t hinv ht, fun p hp => hadm p ?_⟩
  rw [step_input ht] at hp
  exact List.mem_of_mem_tail hp

/-- Settles O47, by induction on the number of steps. -/
theorem sessionNeverAborts : Obligations.SessionNeverAborts := by
  intro n
  induction n with
  | zero => exact fun s hinv _ => ⟨s, rfl, hinv⟩
  | succ n ih =>
    intro s hinv hadm
    obtain ⟨t, ht, htinv, htadm⟩ := admittedStepReturns s hinv hadm
    rw [stepN, ht]
    exact ih t htinv htadm

end Sys2Proof.Machine
end

section
/-!
PROOFS, the rules of machines that agree: an agreement of every step is one of every number of steps, and in Idle no
operation reads the bit state.
-/

namespace Sys2Proof.Machine

/-! ## Outcomes that agree -/

/-- An outcome agrees with itself under a reflexive relation. -/
theorem Agree.refl {rel : State → State → Prop} (hrefl : ∀ s, rel s s) (a : Host.Outcome State Fault Refusal) :
    Agree rel a a := by
  cases a with
  | next s => exact hrefl s
  | fault | refused => exact rfl

/-- A relation under which every step agrees is one under which every number of steps agrees. -/
theorem Agree.stepN_of_step {rel : State → State → Prop}
    (hstep : ∀ s t, rel s t → Agree rel (step s) (step t)) (n : Nat) :
    ∀ s t, rel s t → Agree rel (stepN n s) (stepN n t) := by
  induction n with
  | zero => exact fun s t h => h
  | succ n ih =>
    intro s t h
    have hagree := hstep s t h
    rw [stepN, stepN]
    generalize step s = a at hagree ⊢
    generalize step t = b at hagree ⊢
    cases a <;> cases b
    case next.next s' t' => simpa only using ih s' t' hagree
    case fault.fault | refused.refused => exact hagree
    all_goals exact hagree.elim

/-! ## The bit state left in Idle -/

/-- A machine differs in nothing from itself. -/
theorem State.At.SameButIdleRemnant.refl (s : State) : s.SameButIdleRemnant s :=
  ⟨rfl, rfl, rfl, rfl, rfl, rfl, rfl, rfl, rfl, fun _ => ⟨rfl, rfl⟩⟩

/-- In Idle a machine may have any bit state. -/
theorem State.At.SameButIdleRemnant.of_setBits {s : State} (h : s.dec.phase = .idle) (bp : BitVec 3) (acc : Byte) :
    s.SameButIdleRemnant { s with dec := s.dec.setBits bp acc } :=
  ⟨rfl, rfl, rfl, rfl, rfl, rfl, rfl, rfl, rfl, fun hne => absurd h hne⟩

/-- Machines that differ at most in the bit state left in Idle are equal, or are in Idle with any two bit states. -/
theorem State.At.SameButIdleRemnant.cases {s t : State} (h : s.SameButIdleRemnant t) :
    s = t ∨ (s.dec.phase = .idle ∧ ∃ bp acc, t = { s with dec := s.dec.setBits bp acc }) := by
  obtain ⟨⟨p, scl, sda, bp, acc⟩, input, port, out, bytes, texts, diags⟩ := s
  obtain ⟨⟨p', scl', sda', bp', acc'⟩, input', port', out', bytes', texts', diags'⟩ := t
  obtain ⟨rfl, rfl, rfl, rfl, rfl, rfl, rfl, rfl, rfl, hbits⟩ := h
  by_cases hidle : p = .idle
  · exact .inr ⟨hidle, bp', acc', rfl⟩
  · obtain ⟨rfl, rfl⟩ := hbits hidle
    exact .inl rfl

/-- From Idle a step gives the same outputs whatever the bit state; the next decoder is the same too, or it is in Idle
and holds the bit state on. -/
theorem stepProcedure_setBits_of_idle {τ : Type} {d : Decoder} (h : d.phase = .idle) (scl sda : Level) (ts : τ)
    (bp : BitVec 3) (acc : Byte) :
    ∃ d' o, stepProcedure d scl sda ts = some (d', o) ∧
      (stepProcedure (d.setBits bp acc) scl sda ts = some (d', o) ∨
       d'.phase = .idle ∧ stepProcedure (d.setBits bp acc) scl sda ts = some (d'.setBits bp acc, o)) := by
  have hcode : transitionCode (d.setBits bp acc) scl sda = transitionCode d scl sda := rfl
  simp only [stepProcedure, hcode]
  cases classify (transitionCode d scl sda) with
  | nochg | clkfall | setup => exact ⟨_, _, rfl, .inr ⟨h, rfl⟩⟩
  | start => exact ⟨_, _, rfl, .inl rfl⟩
  | stop => exact ⟨_, _, rfl, .inr ⟨rfl, rfl⟩⟩
  | bitsample b =>
    simp only [operate, phaseAction, Decoder.setBits_phase, h]
    exact ⟨_, _, rfl, .inr ⟨h, rfl⟩⟩

section idle

variable {s : State} (h : s.dec.phase = .idle) (bp : BitVec 3) (acc : Byte)

include h

/-- From Idle a sample gives agreeing outcomes whatever the bit state. -/
theorem sampleProcedure_agree_of_idle :
    Agree State.At.SameButIdleRemnant (sampleProcedure s)
      (sampleProcedure { s with dec := s.dec.setBits bp acc }) := by
  obtain ⟨d, o, hstep, hstep' | ⟨hidle, hstep'⟩⟩ :=
    stepProcedure_setBits_of_idle h s.port.sclIn s.port.sdaIn s.port.tsIn bp acc
  · rw [sampleProcedure_of_stepProcedure hstep, sampleProcedure_of_stepProcedure hstep']
    exact State.At.SameButIdleRemnant.refl _
  · rw [sampleProcedure_of_stepProcedure hstep, sampleProcedure_of_stepProcedure hstep']
    exact .of_setBits (s := State.At.record { s with dec := d } o) hidle bp acc

/-- From Idle a transaction gives agreeing outcomes whatever the bit state. -/
theorem transact_agree_of_idle :
    Agree State.At.SameButIdleRemnant (transact s) (transact { s with dec := s.dec.setBits bp acc }) := by
  simp only [transact, runSample_eq_sampleProcedure]
  cases s.port.request with
  | nothing => exact .of_setBits (s := noTransaction s) h bp acc
  | sample => exact sampleProcedure_agree_of_idle h bp acc
  | create => exact State.At.SameButIdleRemnant.refl (createSession s)
  | both => exact rfl

/-- From Idle a step gives agreeing outcomes whatever the bit state. -/
theorem step_agree_of_idle :
    Agree State.At.SameButIdleRemnant (step s) (step { s with dec := s.dec.setBits bp acc }) := by
  obtain ⟨d, input, port, out, bytes, texts, diags⟩ := s
  cases input with
  | nil => exact .of_setBits (s := noTransaction ⟨d, [], port, out, bytes, texts, diags⟩) h bp acc
  | cons p rest =>
    exact transact_agree_of_idle (s := State.At.present ⟨d, [], port, out, bytes, texts, diags⟩ p rest) h bp acc

end idle

end Sys2Proof.Machine
end

section
/-!
PROOFS, the rules of the type of timestamps: what is a renaming, by the timestamps it holds.
-/

namespace Sys2Proof.Machine

/-- The timestamps a machine holds. -/
def State.At.timestamps {τ : Type} (x : State.At τ) : List τ :=
  x.port.tsIn :: (x.input.map InPorts.tsIn ++ x.out.events.map Event.ts ++ x.byteSink.map Prod.fst ++
    x.textSink.map Prod.fst)

section range

variable {σ τ : Type} {f : σ → τ}

/-- A list is a list of images when each of its elements is an image. -/
theorem exists_map_eq {α β : Type} {g : α → β} {ys : List β} (h : ∀ y ∈ ys, ∃ x, g x = y) :
    ∃ xs, List.map g xs = ys := by
  have hmem : ys ∈ Set.range (List.map g) := by
    rw [Set.range_list_map]
    exact h
  exact hmem

/-- An event is a renaming when its timestamp is an image. -/
theorem Event.exists_mapTs_eq {e : Event τ} (h : ∃ t, f t = e.ts) : ∃ e', Event.mapTs f e' = e := by
  obtain ⟨t, ht⟩ := h
  cases e with
  | byte ts v => exact ⟨.byte t v, congrArg (Event.byte · v) ht⟩
  | text ts g => exact ⟨.text t g, congrArg (Event.text · g) ht⟩

/-- A port bundle is a renaming when its timestamp is an image. -/
theorem InPorts.exists_mapTs_eq {p : InPorts τ} (h : ∃ t, f t = p.tsIn) : ∃ p', InPorts.mapTs f p' = p := by
  obtain ⟨t, ht⟩ := h
  exact ⟨⟨p.sampleValid, p.create, p.sclIn, p.sdaIn, t⟩, by rw [InPorts.mapTs, ht]⟩

/-- An entry of a sink is a renaming when its timestamp is an image. -/
theorem exists_renamed_entry {α : Type} {e : τ × α} (h : ∃ t, f t = e.1) : ∃ e' : σ × α, (f e'.1, e'.2) = e := by
  obtain ⟨t, ht⟩ := h
  exact ⟨(t, e.2), by rw [ht]⟩

/-- A machine is a renaming when each of its timestamps is an image. -/
theorem State.At.exists_mapTs_eq {x : State.At τ} (h : ∀ ts ∈ x.timestamps, ∃ t, f t = ts) :
    ∃ s : State.At σ, s.mapTs f = x := by
  simp only [State.At.timestamps, List.forall_mem_cons, List.forall_mem_append, List.forall_mem_map] at h
  obtain ⟨hport, ⟨⟨hinput, hevents⟩, hbytes⟩, htexts⟩ := h
  obtain ⟨port, hport⟩ := InPorts.exists_mapTs_eq hport
  obtain ⟨input, hinput⟩ := exists_map_eq fun p hp => InPorts.exists_mapTs_eq (hinput p hp)
  obtain ⟨events, hevents⟩ := exists_map_eq fun e he => Event.exists_mapTs_eq (hevents e he)
  obtain ⟨bytes, hbytes⟩ := exists_map_eq fun e he => exists_renamed_entry (hbytes e he)
  obtain ⟨texts, htexts⟩ := exists_map_eq fun e he => exists_renamed_entry (htexts e he)
  refine ⟨⟨x.dec, input, port, ⟨events, x.out.diag⟩, bytes, texts, x.diagSink⟩, ?_⟩
  rw [State.At.mapTs, Output.mapTs, hport, hinput, hevents, hbytes, htexts]

end range

end Sys2Proof.Machine
end

section
/-!
PROOFS, the statements about noninterference: the bit state left in Idle, and the type of timestamps.
-/

namespace Sys2Proof.Machine

/-- Settles O50: machines that differ are in Idle, where a step reads no bit state; the agreement of a step is that of
any number of steps. -/
theorem idleRemnantIsNeverObservable : Obligations.IdleRemnantIsNeverObservable := by
  refine fun n => Agree.stepN_of_step (fun s t h => ?_) n
  obtain rfl | ⟨hidle, bp, acc, rfl⟩ := h.cases
  · exact .refl .refl _
  · exact step_agree_of_idle hidle bp acc

/-- Settles O57: the step is the procedure's, which commutes with every renaming, into any type. -/
theorem timestampTypeIsFree : Obligations.TimestampTypeIsFree := by
  intro τ f s
  rw [step_eq_procedureStep, procedureStep_mapTs]

/-- Settles O58: a machine holds finitely many timestamps, and at least one, so a function from the natural numbers has
them as its values. -/
theorem everyTimestampTypeIsCovered : Obligations.EveryTimestampTypeIsCovered := by
  intro τ x
  have hcountable : {ts | ts ∈ x.timestamps}.Countable := (List.finite_toSet x.timestamps).countable
  obtain ⟨f, hf⟩ := hcountable.exists_eq_range ⟨x.port.tsIn, List.mem_cons_self⟩
  exact ⟨f, State.At.exists_mapTs_eq fun ts hts => hf.subset hts⟩

end Sys2Proof.Machine
end

section
/-!
PROOFS, the rules of well-formed operations, of the phase and the levels after a step, of a row of data bits, and of the
bus pseudo-instructions.
-/

namespace Sys2Proof

/-- An operation is well formed exactly when its word has a legal phase code: a BITSAMPLE row fixes one (R54, R61). -/
theorem Instr.wellFormed_eq_legalPhaseCode (i : Instr) : i.wellFormed = legalPhaseCode (wordPhase (encode i)) := by
  cases i <;> rw [encode, wordPhase_packWord] <;> rfl

namespace Machine

/-! ## The phase and the levels after a step -/

/-- An operation leaves the levels of its own word (R66). -/
theorem exec_levels {i : Instr} {s t : State} (h : exec i s = .next t) :
    t.dec.lastScl = wordBit (encode i) 1 ∧ t.dec.lastSda = wordBit (encode i) 0 := by
  obtain ⟨d, o, rfl, hscl, hsda, -⟩ := exec_cases h
  exact ⟨hscl, hsda⟩

/-- The step procedure gives the phase of the transition table (R81). -/
theorem phase_of_stepProcedure {τ : Type} {d d' : Decoder} {scl sda : Level} {ts : τ} {o : Output τ}
    (h : stepProcedure d scl sda ts = some (d', o)) : d'.phase = nextPhase d scl sda := by
  unfold stepProcedure at h
  unfold nextPhase
  cases hclass : classify (transitionCode d scl sda) with
  | nochg | clkfall | setup | start | stop =>
    simp only [hclass, operate] at h
    cases h
    rfl
  | bitsample b =>
    cases hphase : d.phase with
    | idle | readDirection | readAck =>
      simp only [hclass, operate, phaseAction, hphase] at h
      cases h
      simp [Decoder.unchanged, hphase]
    | readAddress | readData =>
      simp only [hclass, operate, phaseAction, hphase] at h
      split_ifs at h ⊢ <;> cases h <;> rfl

/-- A sample that goes on leaves the phase of the transition table: its operation does what the step procedure gives. -/
theorem phase_of_runSample {s t : State} (h : runSample s = .next t) :
    t.dec.phase = nextPhase s.dec s.port.sclIn s.port.sdaIn := by
  obtain ⟨i, hword, hexec⟩ := runSample_cases h
  obtain ⟨d, o, rfl, hscl, hsda, heff⟩ := exec_cases hexec
  exact phase_of_stepProcedure (heff.stepProcedure_eq hword hscl hsda)

/-- A step that leaves ReadAck and ReadData executes START or STOP, whose words have a change of SDA under high SCL
(R90). -/
theorem ExecEffect.sda_changes_of_leaves_data {i : Instr} {s : State} {d : Decoder} {o : Output Timestamp}
    (heff : ExecEffect i s d o) (hword : encode i = s.word) (hdata : s.dec.phase ∈ [Phase.readAck, .readData])
    (hleaves : d.phase ∉ [Phase.readAck, .readData]) :
    s.dec.lastScl = 1#1 ∧ s.port.sclIn = 1#1 ∧ s.dec.lastSda ≠ s.port.sdaIn := by
  cases i
  case start | stop =>
    obtain ⟨-, hlastScl, hlastSda, hscl, hsda⟩ := packWord_inj.mp hword
    refine ⟨hlastScl.symm, hscl.symm, ?_⟩
    rw [← hlastSda, ← hsda]
    decide
  case nochg00 | nochg01 | nochg10 | nochg11 | clkfall | setupR | setupF | idlebit =>
    obtain ⟨-, hphase, -⟩ := heff
    exact absurd (hphase ▸ hdata) hleaves
  case addrbit =>
    obtain ⟨hphase, -⟩ := risingEdge_of_dispatchWord (p := .readAddress) hword
    simp [hphase] at hdata
  case dirbit | ackbit =>
    obtain ⟨-, hphase, -⟩ := heff
    simp [hphase] at hleaves
  case databit =>
    obtain ⟨-, -, hphase, -⟩ | ⟨-, -, hphase, -⟩ := heff <;> simp [hphase] at hleaves

/-- One step. -/
theorem stepN_one (s : State) : stepN 1 s = step s := by
  rw [stepN]
  cases step s <;> rfl

/-! ## A row of data bits -/

/-- A row of operations that begins with the data bit number `n` below 7 goes on with that bit counted. The decoder
and the outputs are arguments, as in `execAll_addrbit`. -/
theorem execAll_databit {s : State} {d : Decoder} {o : Output Timestamp} (ld b : Level) (n : Nat) (hn : n < 7)
    (h : d.bitPosition = BitVec.ofNat 3 n) (is : List Instr) :
    execAll (.databit ld b :: is) { s with dec := d, out := o } =
      execAll is { s with
        dec := ⟨.readData, 1#1, b, BitVec.ofNat 3 (n + 1), insertBit d.byteAccumulator (7 - n) b⟩
        out := .silent } := by
  have hbp : d.bitPosition.toNat = n := by simp [h]; omega
  rw [execAll, exec_databit_of_lt (s := { s with dec := d, out := o }) ld b (by simp only; omega), insertDataBit,
    hbp, h, BitVec.ofNat_add_ofNat]

/-! ## The expansions of the bus pseudo-instructions -/

/-- The expansion of a bit ends on that bit with SCL high (R65). -/
theorem expandBit_getLast? (x b : Level) : (expandBit x b).getLast? = some ⟨1#1, b⟩ := by
  rw [expandBit, List.getLast?_append]
  rfl

/-- The expansion of a row of bits ends on its last bit with SCL high (R65). -/
theorem expandBits_getLast? (x : Level) (bs : List Level) :
    (expandBits x bs).getLast? = bs.getLast?.map (Levels.mk 1#1) := by
  induction bs generalizing x with
  | nil => rfl
  | cons b bs ih =>
    rw [expandBits, List.getLast?_append, ih, expandBit_getLast?, List.getLast?_cons]
    cases bs.getLast? <;> rfl

/-- The last bit sent, most significant first, is bit 0 (R33). -/
theorem bitsMsbFirst_getLast? {n : Nat} (v : BitVec (n + 1)) :
    (bitsMsbFirst v).getLast? = some (v.extractLsb' 0 1) := by
  simp [bitsMsbFirst, List.range_succ_eq_map]

end Machine

end Sys2Proof
end

section
/-!
PROOFS, the statements about the encoding of operations.
-/

namespace Sys2Proof.Machine

/-- Settles O1, by cases on the operation. -/
theorem decodeOfEncodeIsTheOperation : Obligations.DecodeOfEncodeIsTheOperation := decode_encode

/-- Settles O2: the fixed bits of the selected row and the operands read from the free bits make up the word. -/
theorem encodeOfDecodeIsTheWord : Obligations.EncodeOfDecodeIsTheWord := fun _ _ => encode_of_decode

/-- Settles O10: the row that R55 gives the word reads the operation, and the phase register holds a legal code. -/
theorem everySampleSelectsAnOperation : Obligations.EverySampleSelectsAnOperation := by
  intro d scl sda
  obtain ⟨i, hword⟩ := exists_encode_eq_dispatchWord d scl sda
  refine ⟨i, hword ▸ decode_encode i, ?_, hword⟩
  rw [i.wellFormed_eq_legalPhaseCode, hword, dispatchWord, wordPhase_packWord, Phase.legal_code]

/-- Settles O3, by running the decoder on the fourteen words. -/
theorem patternWordsDecode : Obligations.PatternWordsDecode := by
  unfold Obligations.PatternWordsDecode
  decide

/-- Settles O7: a code above 4 is not legal, neither in the word nor in the operation whose word it is. -/
theorem reservedPhaseHasNoMeaning : Obligations.ReservedPhaseHasNoMeaning := by
  intro w hreserved
  constructor
  · rw [← Option.not_isSome_iff_eq_none, Phase.isSome_ofCode?_iff]
    omega
  · intro i hdecode
    rw [i.wellFormed_eq_legalPhaseCode, encode_of_decode hdecode, legalPhaseCode, decide_eq_false_iff_not]
    omega

end Sys2Proof.Machine
end

section
/-!
PROOFS, the statements about a step and the operation it executes.
-/

namespace Sys2Proof.Machine

/-- Settles O9: the decoded operation is the one whose word is the step's dispatch word. -/
theorem stepExecutesDecodedOperation : Obligations.StepExecutesDecodedOperation := by
  intro s p rest i hin hreq hdecode _
  rw [InPorts.eq_sample hreq] at hin hdecode ⊢
  exact step_eq_exec hin (encode_of_decode hdecode)

/-- Settles O12: the state that a `create` starts a session in. -/
theorem createWritesEveryField : Obligations.CreateWritesEveryField := fun _ _ _ _ _ hin => step_creating hin

/-- Settles O14: without a transaction the state is held; of what a step can have done, only a sample or `create`
writes the decoder. -/
theorem onlySampleOrCreateChangesTheDecoder : Obligations.OnlySampleOrCreateChangesTheDecoder := by
  refine ⟨fun s hin => ⟨_, step_nil hin, rfl, hin, rfl, rfl, rfl, rfl, rfl⟩, fun s t h hchanged => ?_⟩
  obtain ⟨-, rfl⟩ | ⟨p, rest, hin, ⟨-, rfl⟩ | ⟨hreq, -⟩ | ⟨hreq, -⟩⟩ := step_cases h
  · exact absurd rfl hchanged
  · exact absurd rfl hchanged
  · exact ⟨p, rest, hin, .inr hreq⟩
  · exact ⟨p, rest, hin, .inl hreq⟩

/-- Settles O17: the four NOCHG operations are silent ones. -/
theorem nochgResult : Obligations.NochgResult := fun _ s =>
  ⟨silentStep_eq 0#1 0#1 s, silentStep_eq 0#1 1#1 s, silentStep_eq 1#1 0#1 s, silentStep_eq 1#1 1#1 s⟩

/-- Settles O26: the guard of ADDRBIT. -/
theorem addressOverrunIsRefused : Obligations.AddressOverrunIsRefused := fun _ _ _ hbp => if_pos hbp

/-- Settles O32: seven counted bits, then the completing bit; the eight insertions make up the byte. -/
theorem dataByteIsTheEightBits : Obligations.DataByteIsTheEightBits := by
  intro s l7 l6 l5 l4 l3 l2 l1 l0 b7 b6 b5 b4 b3 b2 b1 b0 hbp hacc
  rw [execAll_databit l7 b7 0 (by decide) hbp, execAll_databit l6 b6 1 (by decide) rfl,
    execAll_databit l5 b5 2 (by decide) rfl, execAll_databit l4 b4 3 (by decide) rfl,
    execAll_databit l3 b3 4 (by decide) rfl, execAll_databit l2 b2 5 (by decide) rfl,
    execAll_databit l1 b1 6 (by decide) rfl, execAll, exec_databit_of_eq l0 b0 rfl, hacc, ← insertBit_eight]
  rfl

/-- Settles O34, by cases on the operation: its effect keeps the fields it does not write. -/
theorem fieldsAnOperationDoesNotWrite : Obligations.FieldsAnOperationDoesNotWrite := by
  intro i s t h
  obtain ⟨d, o, rfl, -, -, heff⟩ := exec_cases h
  rw [State.At.record_dec]
  cases i
  case nochg00 | nochg01 | nochg10 | nochg11 | clkfall | setupR | setupF | idlebit =>
    obtain ⟨-, hkept⟩ := heff
    simp [Instr.opcode, hkept]
  case stop | dirbit =>
    obtain ⟨-, -, hbits⟩ := heff
    simp [Instr.opcode, hbits]
  case start | addrbit | ackbit | databit => simp [Instr.opcode]

/-- Settles O35: an operation that goes on has written the decoder and recorded its outputs. -/
theorem operationsOnlyAppendToTheSinks : Obligations.OperationsOnlyAppendToTheSinks := by
  intro i s t h
  obtain ⟨d, o, rfl, -⟩ := exec_cases h
  exact ⟨rfl, rfl, rfl, rfl, rfl⟩

/-- Settles O36: an operation leaves the levels of its word, which in a step are those of the sample. -/
theorem levelsUpdatedOnEveryStep : Obligations.LevelsUpdatedOnEveryStep := by
  refine ⟨fun i s t => exec_levels, fun s t ts scl sda rest hp h => ?_⟩
  obtain ⟨i, hword, hexec⟩ := step_sample_cases hp h
  have hlevels := exec_levels hexec
  rwa [hword, dispatchWord, wordBit_packWord_one, wordBit_packWord_zero] at hlevels

/-- Settles O48: a step performs a transaction, and the one that executes an operation goes on or is refused. -/
theorem noStepFaults : Obligations.NoStepFaults := by
  intro s r h
  cases hin : s.input with
  | nil =>
    rw [step_nil hin] at h
    cases h
  | cons p rest =>
    rw [step_cons hin, transact, State.At.present_port] at h
    cases hreq : p.request with
    | nothing | create | both =>
      rw [hreq] at h
      cases h
    | sample =>
      rw [hreq] at h
      obtain ⟨t, hnext⟩ | ⟨-, -, hrefused⟩ := runSample_next_or_overrun (s.present p rest)
      · exact absurd (hnext.symm.trans h) (by simp)
      · exact absurd (hrefused.symm.trans h) (by simp)

end Sys2Proof.Machine
end

section
/-!
PROOFS, the statements about the phases and the stimuli.
-/

namespace Sys2Proof.Machine

/-- Settles O44: the decoder is reset to Idle, where the invariant asks nothing. -/
theorem sessionStateAtReset : Obligations.SessionStateAtReset := Decoder.inv_of_idle rfl

/-- Settles O42: the step runs the sample, which leaves the phase of the table. -/
theorem phaseFollowsTheTransitionTable : Obligations.PhaseFollowsTheTransitionTable := by
  intro s t ts scl sda rest hp h
  rw [step_sample hp] at h
  simpa only [State.At.present_dec, State.At.present_port, InPorts.sample] using phase_of_runSample h

/-- Settles O43: of what a step can have done, only `create` and the operation of a sample write the phase. -/
theorem dataCycleEndsOnlyByStartStopOrCreate : Obligations.DataCycleEndsOnlyByStartStopOrCreate := by
  intro s t hdata h hleaves
  obtain ⟨-, rfl⟩ | ⟨p, rest, hin, ⟨-, rfl⟩ | ⟨hreq, -⟩ | ⟨hreq, hrun⟩⟩ := step_cases h
  · exact absurd hdata hleaves
  · exact absurd hdata hleaves
  · exact ⟨p, rest, hin, .inl hreq⟩
  · obtain ⟨i, hword, hexec⟩ := runSample_cases hrun
    obtain ⟨d, o, rfl, -, -, heff⟩ := exec_cases hexec
    exact ⟨p, rest, hin, .inr ⟨hreq, heff.sda_changes_of_leaves_data hword hdata hleaves⟩⟩

/-- Settles O52: the first sample is a START, which leaves SCL high and SDA low, so the second is a STOP, which keeps
the cleared bit state. -/
theorem lowPulseIsStartThenStop : Obligations.LowPulseIsStartThenStop := by
  intro s ts ts' rest hscl hsda hin
  obtain ⟨execStart_eq, step_eq_start, -⟩ := startResult
  obtain ⟨execStop_eq, step_eq_stop⟩ := stopResult
  obtain ⟨t, hstart, htexts, hbytes, hdec, hinput⟩ : ∃ t, step s = .next t ∧
      t.textSink = s.textSink ++ [(ts, startTag s.dec.phase)] ∧ t.byteSink = s.byteSink ∧
      t.dec = ⟨.readAddress, 1#1, 0#1, 0#3, 0#8⟩ ∧ t.input = InPorts.sample ts' 1#1 1#1 :: rest :=
    ⟨_, (step_eq_start s ts _ hscl hsda hin).trans (execStart_eq _ _), rfl, rfl, rfl, rfl⟩
  have hstop := (step_eq_stop t ts' rest (by rw [hdec]) (by rw [hdec]) hinput).trans (execStop_eq _ _)
  have hrun : stepN 2 s = step t := by
    rw [stepN, hstart]
    exact stepN_one t
  refine ⟨_, hrun.trans hstop, ?_, hbytes, ?_, rfl⟩
  · simp [htexts, InPorts.sample]
  · simp [hdec, Decoder.create]

/-- Settles O54, by cases on the pseudo-instruction: the last bit of its row, and what follows that row. -/
theorem pseudoInstructionEndLevels : Obligations.PseudoInstructionEndLevels := by
  intro p l xs h
  cases p with
  | hold =>
    cases h
    rfl
  | startBus | stopDirect =>
    obtain ⟨-, hxs⟩ := Option.ite_none_right_eq_some.mp h
    cases hxs
    rfl
  | stopBus | restartBus =>
    obtain ⟨-, hxs⟩ := Option.ite_none_right_eq_some.mp h
    rw [← Option.some.inj hxs, List.getLast?_append]
    rfl
  | bit b =>
    obtain ⟨-, hxs⟩ := Option.ite_none_right_eq_some.mp h
    rw [← Option.some.inj hxs, expandBit_getLast?, Pseudo.endLevels]
  | addr a | byte v =>
    obtain ⟨-, hxs⟩ := Option.ite_none_right_eq_some.mp h
    rw [← Option.some.inj hxs, expandBits_getLast?, bitsMsbFirst_getLast?, Pseudo.endLevels]
    rfl

end Sys2Proof.Machine
end
